-- ==== Sys2Proof/Word.lean ====
section
/-! DEFINITION. The word types of BMPSTEG: bytes (spec 00_scope.md R15) and the register widths of 00_scope.md R11. -/

namespace Sys2Proof

/-- A byte: 8 bits (00_scope.md R15). -/
abbrev Byte := BitVec 8

/-- A 16-bit register: MAGIC, BITS_PER_PIXEL, STATUS (00_scope.md R11). -/
abbrev Word16 := BitVec 16

/-- A 32-bit register (00_scope.md R11). -/
abbrev Word32 := BitVec 32

/-- A 64-bit register: lengths and sizes (00_scope.md R11). -/
abbrev Word64 := BitVec 64

end Sys2Proof
end

