-- ==== Sys2Proof/Config.lean ====
section
/-! DEFINITION. What an implementation of BMPSTEG fixes (the named parameters of 00_scope.md R9 and R10), and the free
values of the model, which nothing in Lean can evaluate. -/

namespace Sys2Proof

/-- The named parameters. They are not state (00_scope.md R19.2): State carries them so that every statement is quantified
over them, and no step changes them. DESIGN CHOICE (log 2), safe. -/
structure Params where
  /-- HDR_BYTES, the fixed header size, "a named parameter" (R9). -/
  hdrBytes : Nat
  /-- FILE_CAP, bytes the input-file memory can hold (R10). -/
  fileCap : Nat
  /-- BUF_CAP, bytes the raster buffer memory can hold (R10). -/
  bufCap : Nat
  /-- OUT_CAP, bytes the output-file memory can hold (R10). -/
  outCap : Nat
  deriving DecidableEq, Repr

/-- The parameters of `State.reset`: HDR_BYTES = 54 is PRESUMED (93_implementation_defined.md G1), the capacities are a
DESIGN CHOICE: the largest that 64-bit length registers can describe (log 2). Unsafe for a claim that rests on them: no
obligation does. -/
def Params.default : Params where
  hdrBytes := 54
  fileCap := 2 ^ 64 - 1 - 54
  bufCap := 2 ^ 64 - 1 - 54
  outCap := 2 ^ 64 - 1

/-- MAX_PAYLOAD (00_scope.md R8). -/
abbrev maxPayload : Nat := 255

/-- MAGIC_BM (00_scope.md R8). -/
abbrev magicBM : Nat := 0x4D42

/-- BPP_REQUIRED (00_scope.md R8). -/
abbrev bppRequired : Nat := 24

/-- COMPRESSION_REQUIRED (00_scope.md R8). -/
abbrev compressionRequired : Nat := 0

/-- BYTES_PER_PIXEL (00_scope.md R8). -/
abbrev bytesPerPixel : Nat := 3

/-- ROW_ALIGN (00_scope.md R8). -/
abbrev rowAlign : Nat := 4

/-- MIN_EXTRACT_BYTES (00_scope.md R8). -/
abbrev minExtractBytes : Nat := 8

/-- FREE VALUE (log 3). What a memory byte holds that nothing has written since reset: "each of their bytes holds any
value" (70_reset_and_hazards.md R251). Arguments: the resets so far, how often the byte has been given up since (log 4), the
space's number (20_memory.md R70), the index. It has no body, so a claim that mentions such a byte holds for every value of it. Safe. -/
opaque Config.freeByte : Nat → Nat → Nat → Nat → Byte

/-- FREE VALUE (log 5). What a host read of a byte that is not architectural returns (70_reset_and_hazards.md R261 (f),
93_implementation_defined.md U8): any value, a fresh one for each such read. Safe. -/
opaque Config.strayByte : Nat → Byte

end Sys2Proof
end

