-- ==== Sys2Proof/Syntax.lean ====
section
/-! DEFINITION. The command set of BMPSTEG, version 1 (00_scope.md R1, 30_encoding.md R94): seven commands, none with an
operand field (R93). -/

namespace Sys2Proof

/-- The seven commands, one constructor per row of spec/opcode_table.json. "No operand is encoded or assembled from
command bits" (30_encoding.md R93), so no constructor has an argument. -/
inductive Instr where
  /-- 0x01, `parse(bytes) -> BmpHeader` (41_header_parse.md R111). -/
  | parse
  /-- 0x02, `data_size(header) -> usize` (42_pixel_buffer.md R137). -/
  | dsize
  /-- 0x03, `load(file, header) -> PixelBuffer` (42_pixel_buffer.md R140). -/
  | load
  /-- 0x04, `store(file, header, buffer)` (42_pixel_buffer.md R146). -/
  | store
  /-- 0x05, `encode(payload: bytes) -> MessageFrame` (43_message_frame.md R162). -/
  | encode
  /-- 0x06, `embed(buffer, frame) -> ()` (44_lsb_codec.md R176). -/
  | embed
  /-- 0x07, `extract(buffer) -> MessageFrame` (44_lsb_codec.md R185). -/
  | extract
  deriving DecidableEq, Repr

end Sys2Proof
end

