-- ==== Sys2Proof/Decode.lean ====
section
/-! DEFINITION. The command byte: the opcode map of 30_encoding.md R94 as a table, the decoder that searches it (total on
bytes, R92; reserved codes rejected by name, R95), and the encoder. -/

namespace Sys2Proof

/-- One row of the opcode map: a byte b selects the row when (b & mask) = match (30_encoding.md R94). -/
structure OpRow where
  code : Byte
  mask : Byte
  instr : Instr
  deriving DecidableEq, Repr

/-- The opcode map of 30_encoding.md R94, row by row. -/
def opcodeMap : List OpRow :=
  [ ⟨0x01, 0xFF, .parse⟩,
    ⟨0x02, 0xFF, .dsize⟩,
    ⟨0x03, 0xFF, .load⟩,
    ⟨0x04, 0xFF, .store⟩,
    ⟨0x05, 0xFF, .encode⟩,
    ⟨0x06, 0xFF, .embed⟩,
    ⟨0x07, 0xFF, .extract⟩ ]

/-- The row's selection rule (30_encoding.md R94). -/
def OpRow.selects (r : OpRow) (b : Byte) : Bool := b &&& r.mask == r.code

/-- Why a byte is no command (30_encoding.md R95: the codes 0x00 and 0x08 to 0xFF are reserved). -/
inductive ReservedCode where
  /-- 0x00: "reserved on purpose, so that a write of zero starts nothing". -/
  | zero
  /-- 0x08 to 0xFF. -/
  | unassigned (b : Byte)
  deriving DecidableEq, Repr

/-- Decoding a command byte: total, reads no state (30_encoding.md R92). -/
def decode (b : Byte) : Except ReservedCode Instr :=
  match opcodeMap.find? (fun r => r.selects b) with
  | some r => .ok r.instr
  | none => if b = 0 then .error .zero else .error (.unassigned b)

/-- The command byte of a command (30_encoding.md R90: bits 7:0 are the command code). -/
def encode : Instr → Byte
  | .parse => 0x01
  | .dsize => 0x02
  | .load => 0x03
  | .store => 0x04
  | .encode => 0x05
  | .embed => 0x06
  | .extract => 0x07

/-- "The encoding of a sequence is the sequence of its command bytes in order" (30_encoding.md R97). -/
def encodeSeq (is : List Instr) : List Byte := is.map encode

/-- Decoding a sequence of command bytes, stopping at the first reserved code. -/
def decodeSeq : List Byte → Except ReservedCode (List Instr)
  | [] => .ok []
  | b :: bs =>
    match decode b with
    | .error e => .error e
    | .ok i =>
      match decodeSeq bs with
      | .error e => .error e
      | .ok is => .ok (i :: is)

/-- The command byte among the low `nbits` bits of `w`: a command is its first byte, bit 0 least significant. -/
def commandByte (nbits w : Nat) : Byte := BitVec.ofNat 8 (w % 2 ^ nbits)

/-- The instruction the decoder reads from a word numbered as spec/opcode_table.json numbers it. -/
def decodeTableWord (nbits w : Nat) : Option Instr :=
  match decode (commandByte nbits w) with
  | .ok i => some i
  | .error _ => none

end Sys2Proof
end

