-- ==== Sys2Proof/Machine/Port.lean ====
section
/-! DEFINITION. The host port of BMPSTEG: the six memory spaces (20_memory.md R70), the nineteen registers
(10_state.md R45), the actions a host may take (70_reset_and_hazards.md R258) and what its reads return. -/

namespace Sys2Proof.Machine

/-- The six byte-addressed memory spaces (20_memory.md R70). -/
inductive Space where
  | file
  | hdrRaw
  | buf
  | msg
  | frame
  | out
  deriving DecidableEq, Repr

/-- Space numbers, "labels for a host port" (20_memory.md R70). -/
def Space.number : Space → Nat
  | .file => 0
  | .hdrRaw => 1
  | .buf => 2
  | .msg => 3
  | .frame => 4
  | .out => 5

/-- Which spaces the host may write (20_memory.md R70, column host). -/
def Space.hostWritable : Space → Bool
  | .file => true
  | .hdrRaw => false
  | .buf => true
  | .msg => true
  | .frame => false
  | .out => false

/-- The size of a space in bytes (20_memory.md R70, column size). -/
def Space.size (p : Params) : Space → Nat
  | .file => p.fileCap
  | .hdrRaw => p.hdrBytes
  | .buf => p.bufCap
  | .msg => 255
  | .frame => 256
  | .out => p.outCap

/-- The registers of 10_state.md R45. -/
inductive Reg where
  | cmd
  | status
  | fileLen
  | bufLen
  | payloadLen
  | outLen
  | byteIndex
  | frameLen
  | magic
  | fileSize
  | pixelDataOffset
  | widthPx
  | heightPx
  | bitsPerPixel
  | compression
  | imageSizeBytes
  | rowStride
  | heightAbs
  | dataSize
  deriving DecidableEq, Repr

/-- Register numbers (10_state.md R45). -/
def Reg.number : Reg → Byte
  | .cmd => 0x00
  | .status => 0x01
  | .fileLen => 0x02
  | .bufLen => 0x03
  | .payloadLen => 0x04
  | .outLen => 0x05
  | .byteIndex => 0x06
  | .frameLen => 0x07
  | .magic => 0x10
  | .fileSize => 0x11
  | .pixelDataOffset => 0x12
  | .widthPx => 0x13
  | .heightPx => 0x14
  | .bitsPerPixel => 0x15
  | .compression => 0x16
  | .imageSizeBytes => 0x17
  | .rowStride => 0x18
  | .heightAbs => 0x19
  | .dataSize => 0x1A

/-- All registers, in the order of 10_state.md R45's table. -/
def Reg.all : List Reg :=
  [ .cmd, .status, .fileLen, .bufLen, .payloadLen, .outLen, .byteIndex, .frameLen, .magic, .fileSize,
    .pixelDataOffset, .widthPx, .heightPx, .bitsPerPixel, .compression, .imageSizeBytes, .rowStride, .heightAbs,
    .dataSize ]

/-- The register with a number; "All other register numbers are reserved" (10_state.md R45). -/
def Reg.ofNumber (n : Byte) : Option Reg := Reg.all.find? (fun r => r.number == n)

/-- Register widths in bits (10_state.md R45). -/
def Reg.width : Reg → Nat
  | .cmd => 8
  | .status => 16
  | .fileLen => 64
  | .bufLen => 64
  | .payloadLen => 32
  | .outLen => 64
  | .byteIndex => 64
  | .frameLen => 8
  | .magic => 16
  | .fileSize => 32
  | .pixelDataOffset => 32
  | .widthPx => 32
  | .heightPx => 32
  | .bitsPerPixel => 16
  | .compression => 32
  | .imageSizeBytes => 32
  | .rowStride => 64
  | .heightAbs => 32
  | .dataSize => 64

/-- Which registers the host may write (10_state.md R45, column host access). -/
def Reg.hostWritable : Reg → Bool
  | .cmd => true
  | .fileLen => true
  | .bufLen => true
  | .payloadLen => true
  | .status => false
  | .outLen => false
  | .byteIndex => false
  | .frameLen => false
  | .magic => false
  | .fileSize => false
  | .pixelDataOffset => false
  | .widthPx => false
  | .heightPx => false
  | .bitsPerPixel => false
  | .compression => false
  | .imageSizeBytes => false
  | .rowStride => false
  | .heightAbs => false
  | .dataSize => false

/-- The steps of a run (70_reset_and_hazards.md R258). A register is selected by its number (10_state.md R45) and a memory
byte by its space and index (20_memory.md R70). -/
inductive HostAction where
  /-- A host register read. -/
  | readReg (n : Byte)
  /-- A host register write of the value `v`; a write to register 0x00, CMD, issues a command (10_state.md R42). -/
  | writeReg (n : Byte) (v : Nat)
  /-- A host memory byte read. -/
  | readMem (sp : Space) (a : Nat)
  /-- A host memory byte write. -/
  | writeMem (sp : Space) (a : Nat) (b : Byte)
  /-- Reset, "an input event of the block, issued by the host, not a command" (R250). -/
  | reset
  /-- The issue of one command byte with its whole execution. -/
  | issue (c : Byte)
  deriving DecidableEq, Repr

/-- What a host read returned: a register's value as the number its rule gives (signed for WIDTH_PX and HEIGHT_PX), or a
memory byte. -/
inductive Reply where
  | reg (r : Reg) (v : Int)
  | byte (sp : Space) (a : Nat) (b : Byte)
  deriving DecidableEq, Repr

end Sys2Proof.Machine
end

