-- ==== Sys2Proof/Machine/State.lean ====
section
/-! DEFINITION. The state of BMPSTEG (10_state.md), the reasons a step of the model can stop, and the state after reset. -/

namespace Sys2Proof.Machine

/-- A byte memory: cells (index, byte), indices strictly rising. An index that is not listed holds no value of its own: it
reads as a free value (log 3), so no listed cell can repeat it. The canonical form is `Memory.wf` (Machine/Ops.lean). -/
abbrev Memory := List Host.Cell

/-- The twelve errors of 60_exceptions.md R211; their codes are `ErrorKind.code` (Machine/Flags.lean). -/
inductive ErrorKind where
  /-- FormatError::Truncated, PARSE (41_header_parse.md R112). -/
  | formatTruncated
  /-- FormatError::BadMagic, PARSE (R113). -/
  | formatBadMagic
  /-- FormatError::UnsupportedBitDepth, PARSE (R114). -/
  | formatUnsupportedBitDepth
  /-- FormatError::UnsupportedCompression, PARSE (R115). -/
  | formatUnsupportedCompression
  /-- IoError::ShortRead, LOAD (42_pixel_buffer.md R142). -/
  | ioShortRead
  /-- FramingError::TooLarge, ENCODE (43_message_frame.md R163). -/
  | framingTooLarge
  /-- FramingError::BufferTooSmall, EXTRACT (44_lsb_codec.md R186). -/
  | framingBufferTooSmall
  /-- FramingError::Truncated, EXTRACT (R188). -/
  | framingTruncated
  /-- CapacityError::Overflow, EMBED (R178). -/
  | capacityOverflow
  /-- SpecError::IllegalCommand, a reserved code (30_encoding.md R95). -/
  | specIllegalCommand
  /-- SpecError::Sequence, DSIZE, LOAD, STORE, EMBED (60_exceptions.md R219). -/
  | specSequence
  /-- SpecError::NegativeWidth, DSIZE, LOAD (42_pixel_buffer.md R131). -/
  | specNegativeWidth
  deriving DecidableEq, Repr

/-- The three results of the size computation, "written together" (10_state.md R30). -/
structure Sizes where
  /-- ROW_STRIDE. -/
  rowStride : Word64
  /-- HEIGHT_ABS. -/
  heightAbs : Word32
  /-- DATA_SIZE. -/
  dataSize : Word64
  deriving DecidableEq, Repr

/-- The output file: OUT_LEN (10_state.md R33) and the memory OUT (R51), both guarded by OUT_VALID. -/
structure OutFile where
  len : Word64
  mem : Memory
  deriving DecidableEq, Repr

/-- Why the machine stops by itself: it never does. No command stops (70_reset_and_hazards.md R260), every error of the spec
is a next state with FAULT = 1 (60_exceptions.md R221), and a host action outside the host rules is refused, not faulted
(R261). So there is no constructor, nothing raises one, and that is safe. -/
inductive Fault where
  deriving DecidableEq, Repr

/-- Why an action has no meaning. All are host actions outside the host rules, which "a model should refuse"
(70_reset_and_hazards.md R261), so all are safe. -/
inductive Refusal where
  /-- A command without a meaning yet. Raised by no arm of `exec`. Safe. -/
  | notModelled (mnemonic : String)
  /-- FILE_LEN written above FILE_CAP or BUF_LEN above BUF_CAP (R261 (a)). Raised by a host register write. Safe. -/
  | lengthAboveCapacity (r : Reg) (v : Nat)
  /-- A guarded register read while its flag is 0 (R261 (b)). Raised by a host register read. Safe. -/
  | guardedRegister (r : Reg)
  /-- A byte of a guarded memory read while its flag is 0 (R261 (b)). Raised by a host memory read. Safe. -/
  | guardedMemory (sp : Space)
  /-- CMD read (R261 (c)). Raised by a host register read. Safe. -/
  | readOfCmd
  /-- A host read-only register written (R261 (d)). Raised by a host register write. Safe. -/
  | readOnlyRegister (r : Reg)
  /-- A host read-only memory written (R261 (d)). Raised by a host memory write. Safe. -/
  | readOnlyMemory (sp : Space)
  /-- A host access to a memory index at or beyond the memory's size (R261 (e)). Raised by a host memory read or write.
  Safe. -/
  | noSuchIndex (sp : Space) (a : Nat)
  /-- A host access to a reserved register number (R261 (e)). Raised by a host register read or write. Safe. -/
  | reservedRegister (n : Byte)
  /-- A value written that does not fit the register's width: the spec gives it no effect. DESIGN CHOICE (log 6). Raised by
  a host register write. Safe. -/
  | valueTooWide (r : Reg) (v : Nat)
  deriving DecidableEq, Repr

/-- The state of BMPSTEG. A guarded register or memory "holds a value only while its valid flag is 1; while the flag is 0 it
holds no value, a model should represent it as absent" (10_state.md, head): the flag and the presence are one thing, so
each of HDR_VALID, SIZE_VALID, FRAME_VALID, OUT_VALID is the presence of what it guards, and FAULT the presence of an
error (DESIGN CHOICE, log 7). Their views, STATUS among them, are in Machine/Flags.lean. -/
structure State where
  /-- The implementation's parameters (00_scope.md R9, R10); no step changes them (log 2). -/
  params : Params
  /-- FILE_LEN (10_state.md R31). -/
  fileLen : Word64
  /-- BUF_LEN (R32). -/
  bufLen : Word64
  /-- PAYLOAD_LEN (R33). -/
  payloadLen : Word32
  /-- BYTE_INDEX (R34). -/
  byteIndex : Word64
  /-- FAULT and ERR (R37, R44): the error of the first fault since reset. -/
  error : Option ErrorKind
  /-- FILE (R46). -/
  file : Memory
  /-- BUF (R48). -/
  buf : Memory
  /-- MSG (R49). -/
  msg : Memory
  /-- HDR_RAW, guarded by HDR_VALID (R47, R38). -/
  hdrRaw : Option Memory
  /-- ROW_STRIDE, HEIGHT_ABS, DATA_SIZE, guarded by SIZE_VALID (R30, R39). -/
  sizes : Option Sizes
  /-- FRAME, guarded by FRAME_VALID (R50, R40). -/
  frame : Option Memory
  /-- OUT_LEN and OUT, guarded by OUT_VALID (R33, R51, R41). -/
  out : Option OutFile
  /-- MODEL'S OWN: the host's actions still to come, the next one first (log 1). -/
  pending : List HostAction
  /-- MODEL'S OWN: what the host's reads returned, the latest first (log 1). -/
  replies : List Reply
  /-- MODEL'S OWN: reset events so far, which pick the free values of unwritten bytes (log 3). -/
  epoch : Nat
  /-- MODEL'S OWN: the ranges [lo, hi) of BUF given up since reset, the latest first: their unwritten bytes
  are drawn anew (log 4). -/
  bufDropped : List (Nat × Nat)
  /-- MODEL'S OWN: host reads of non-architectural bytes so far (log 5). -/
  strays : Nat
  deriving DecidableEq, Repr

/-- The state right after reset for an implementation with parameters `p` (10_state.md R52, 70_reset_and_hazards.md R250):
STATUS, FILE_LEN, BUF_LEN, PAYLOAD_LEN and BYTE_INDEX zero, every guarded register and memory without a value, FILE, BUF
and MSG with nothing written. The model's own fields start empty (DESIGN CHOICE, logs 1, 3, 4, 5). -/
def State.resetOf (p : Params) : State where
  params := p
  fileLen := 0
  bufLen := 0
  payloadLen := 0
  byteIndex := 0
  error := none
  file := []
  buf := []
  msg := []
  hdrRaw := none
  sizes := none
  frame := none
  out := none
  pending := []
  replies := []
  epoch := 0
  bufDropped := []
  strays := 0

/-- The machine right after reset, with the parameters log 2 names. -/
def State.reset : State := State.resetOf Params.default

end Sys2Proof.Machine
end

