-- ==== Sys2Proof/Machine/Ops.lean ====
section
/-! DEFINITION. The named operations over memories and state: byte memories, little-endian fields (00_scope.md R14, R15),
the free values of unwritten bytes, FrameDecode (43_message_frame.md R166), the bit loops of the codec (44_lsb_codec.md), a
change of BUF_LEN, fault entry (60_exceptions.md R221) and the frame every command runs in (R215). -/

namespace Sys2Proof.Machine

/-! ### Byte memories -/

/-- The canonical form: indices strictly rising. An unlisted index has no value of its own (log 3), so no entry can equal
what an unlisted index reads as. -/
abbrev Memory.wf (m : Memory) : Prop := m.Pairwise (fun c d => c.1 < d.1)

/-- The listed value at an index, if any. -/
def Memory.lookup : Memory → Nat → Option Byte
  | [], _ => none
  | (k, v) :: m, a => if k = a then some v else Memory.lookup m a

/-- `M[a]` (00_scope.md R15), where an unlisted index has the value `free a`. -/
def Memory.read (free : Nat → Byte) (m : Memory) (a : Nat) : Byte := (m.lookup a).getD (free a)

/-- `M[a] <- b`: the cell is replaced, or put in its place in the rising order. -/
def Memory.write : Memory → Nat → Byte → Memory
  | [], a, b => [(a, b)]
  | (k, v) :: m, a, b =>
    if a < k then (a, b) :: (k, v) :: m
    else if a = k then (a, b) :: m
    else (k, v) :: Memory.write m a b

/-- The memory that holds `f 0, ..., f (n - 1)` at indices 0 to n - 1 and nothing else. -/
def Memory.ofFn (n : Nat) (f : Nat → Byte) : Memory := (List.range n).map (fun i => (i, f i))

/-- Forget the bytes at indices lo to hi - 1. -/
def Memory.dropRange (m : Memory) (lo hi : Nat) : Memory := m.filter (fun c => decide (c.1 < lo) || decide (hi ≤ c.1))

/-! ### Little-endian fields -/

/-- `LE16(M, a)` (00_scope.md R14). -/
def le16 (rd : Nat → Byte) (a : Nat) : Nat := (rd a).toNat + 256 * (rd (a + 1)).toNat

/-- `LE32(M, a)` (00_scope.md R14). -/
def le32 (rd : Nat → Byte) (a : Nat) : Nat :=
  (rd a).toNat + 256 * (rd (a + 1)).toNat + 65536 * (rd (a + 2)).toNat + 16777216 * (rd (a + 3)).toNat

/-- `sext_32`: "the value is LE32(M, a) when it is below 2^31 and LE32(M, a) − 2^32 otherwise" (00_scope.md R14). -/
def sext32 (v : Nat) : Int := if v < 2 ^ 31 then (v : Int) else (v : Int) - 2 ^ 32

/-! ### The bytes of the state's memories -/

/-- How often an index of a space has been given up since reset: only BUF gives bytes up (log 4). -/
def State.drops (s : State) : Space → Nat → Nat
  | .file, _ => 0
  | .hdrRaw, _ => 0
  | .buf, a => s.bufDropped.countP (fun r => decide (r.1 ≤ a) && decide (a < r.2))
  | .msg, _ => 0
  | .frame, _ => 0
  | .out, _ => 0

/-- The free values of a space's unwritten bytes (70_reset_and_hazards.md R251, R256; log 3). -/
def State.freeOf (s : State) (sp : Space) (a : Nat) : Byte := Config.freeByte s.epoch (s.drops sp a) sp.number a

/-- Byte `a` of the contents `m` of space `sp`; a byte nothing has written is a free value. -/
def State.byteOf (s : State) (sp : Space) (m : Memory) (a : Nat) : Byte := m.read (s.freeOf sp) a

/-- The contents of a space, absent for a guarded memory whose flag is 0 (10_state.md R46 to R51). -/
def State.mem (s : State) : Space → Option Memory
  | .file => some s.file
  | .hdrRaw => s.hdrRaw
  | .buf => some s.buf
  | .msg => some s.msg
  | .frame => s.frame
  | .out => s.out.map OutFile.mem

/-- The byte at an index of a space, absent for a guarded memory whose flag is 0. -/
def State.byteAt (s : State) (sp : Space) (a : Nat) : Option Byte := (s.mem sp).map (fun m => s.byteOf sp m a)

/-- FILE[a]. -/
def State.fileByte (s : State) (a : Nat) : Byte := s.byteOf .file s.file a

/-- BUF[a]. -/
def State.bufByte (s : State) (a : Nat) : Byte := s.byteOf .buf s.buf a

/-- MSG[a]. -/
def State.msgByte (s : State) (a : Nat) : Byte := s.byteOf .msg s.msg a

/-! ### The frame and the codec's loops -/

/-- FrameDecode(L, p): FRAME[0] <- L, FRAME[1 + k] <- p[k] for 0 ≤ k < L (43_message_frame.md R166). ENCODE builds the same
format (R164, R167). -/
def frameDecode (len : Byte) (p : Nat → Byte) : Memory :=
  Memory.ofFn (1 + len.toNat) (fun i => if i = 0 then len else p (i - 1))

/-- "Required capacity in bits = `8 * (1 + frame.payload.length)`" (44_lsb_codec.md R177, R178). -/
def requiredBits (len : Nat) : Nat := 8 * (1 + len)

/-- The bits of the first `n` frame bytes in the order the codec takes them: byte 0 first, bit position 0 first,
"`b = (byte >> bit_pos) & 1`" (20_memory.md R62, R63; 44_lsb_codec.md R176). -/
def frameBits (f : Nat → Byte) (n : Nat) : List Byte :=
  (List.range n).flatMap (fun k => (List.range 8).map (fun i => (f k >>> i) &&& 1))

/-- The loop of EMBED (44_lsb_codec.md R176, R179, R181): each bit `b` goes into the carrier byte under the cursor,
"clear with `& 0xFE` then set with `| b`", and the cursor advances by 1. Answers the buffer and the cursor. -/
def embedLoop (free : Nat → Byte) : List Byte → Nat → Memory → Memory × Nat
  | [], cursor, m => (m, cursor)
  | b :: bs, cursor, m => embedLoop free bs (cursor + 1) (m.write cursor ((m.read free cursor &&& 0xFE) ||| b))

/-- The byte that the least significant bits of eight carrier bytes from `base` spell: "bit at position i ... contributes
`bit << i`" (44_lsb_codec.md R187, R189). -/
def lsbByte (rd : Nat → Byte) (base : Nat) : Byte :=
  (List.range 8).foldl (fun acc i => acc ||| ((rd (base + i) &&& 1) <<< i)) 0

/-! ### Changes of state shared by commands and host -/

/-- Fault entry: FAULT <- 1 and ERR <- code(E), "and no other register, flag or memory byte changes" (60_exceptions.md
R221). Control goes nowhere: there is no vector, saved state or mode. There is no return from it but reset (R225). -/
def State.raise (s : State) (e : ErrorKind) : State := { s with error := some e }

/-- The frame every command runs in, after decoding (60_exceptions.md R215): while FAULT = 1 the command is ignored (R224);
otherwise it ends in the state it computes, or in fault entry. -/
def command (s : State) (r : Except ErrorKind State) : Host.Outcome State Fault Refusal :=
  if s.error.isSome then .next s
  else
    match r with
    | .ok t => .next t
    | .error e => .next (s.raise e)

/-- BUF_LEN <- n by the host. Lowering it gives up the bytes from n to the old length: they "are not architectural" and hold
any value when BUF_LEN is raised over them again (10_state.md R48), so they are forgotten and drawn anew (log 4). Bytes the
host wrote beyond the old length stay (20_memory.md R74, 70_reset_and_hazards.md R256). -/
def State.setBufLen (s : State) (n : Word64) : State :=
  { s with
    bufLen := n
    buf := s.buf.dropRange n.toNat s.bufLen.toNat
    bufDropped := if n < s.bufLen then (n.toNat, s.bufLen.toNat) :: s.bufDropped else s.bufDropped }

/-- LOAD's writes: with n the data_size of `z`, BUF[i] <- f i for i < n, BUF_LEN <- n, and the three sizes. "The previous buffer is replaced as a whole:
bytes of BUF at index data_size and beyond cease to be architectural" (42_pixel_buffer.md R143): all of them are given up
(log 4). -/
def State.replaceBuf (s : State) (z : Sizes) (f : Nat → Byte) : State :=
  { s with
    bufLen := z.dataSize
    buf := Memory.ofFn z.dataSize.toNat f
    sizes := some z
    bufDropped := (z.dataSize.toNat, s.params.bufCap) :: s.bufDropped }

/-- The reset event at any point of a run (70_reset_and_hazards.md R250): the state after reset, with nothing written in
FILE, BUF and MSG and new free values for their bytes ("A model must not assume zero and must not assume that bytes survive
a reset", R251). The parameters, the host's coming actions and what it has read are not the block's. -/
def State.resetEvent (s : State) : State :=
  { State.resetOf s.params with
    pending := s.pending
    replies := s.replies
    epoch := s.epoch + 1
    strays := s.strays }

/-- A host read returns a value; nothing else changes ("Reading is idempotent", 20_memory.md R67). -/
def State.reply (s : State) (r : Reply) : State := { s with replies := r :: s.replies }

end Sys2Proof.Machine
end

