-- ==== Sys2Proof/Machine/Flags.lean ====
section
/-! DEFINITION. The five flags (10_state.md R36 to R41), the error codes (60_exceptions.md R211), ERR and STATUS
(10_state.md R43, R44). There are no arithmetic condition codes (R36). -/

namespace Sys2Proof.Machine

/-- The code of an error (60_exceptions.md R211). -/
def ErrorKind.code : ErrorKind → Byte
  | .formatTruncated => 0x10
  | .formatBadMagic => 0x11
  | .formatUnsupportedBitDepth => 0x12
  | .formatUnsupportedCompression => 0x13
  | .ioShortRead => 0x20
  | .framingTooLarge => 0x30
  | .framingBufferTooSmall => 0x31
  | .framingTruncated => 0x32
  | .capacityOverflow => 0x40
  | .specIllegalCommand => 0xE0
  | .specSequence => 0xE1
  | .specNegativeWidth => 0xE2

/-- FAULT (10_state.md R37). -/
def State.fault (s : State) : Bool := s.error.isSome

/-- HDR_VALID (10_state.md R38). -/
def State.hdrValid (s : State) : Bool := s.hdrRaw.isSome

/-- SIZE_VALID (10_state.md R39). -/
def State.sizeValid (s : State) : Bool := s.sizes.isSome

/-- FRAME_VALID (10_state.md R40). -/
def State.frameValid (s : State) : Bool := s.frame.isSome

/-- OUT_VALID (10_state.md R41). -/
def State.outValid (s : State) : Bool := s.out.isSome

/-- ERR: "0x00 while FAULT = 0", else the code of the first fault since reset (10_state.md R44). -/
def State.err (s : State) : Byte :=
  match s.error with
  | none => 0x00
  | some e => e.code

/-- A flag at bit n of STATUS. -/
def statusBit (b : Bool) (n : Nat) : Word16 := (BitVec.ofBool b).setWidth 16 <<< n

/-- STATUS (10_state.md R43): bit 0 FAULT, 1 HDR_VALID, 2 SIZE_VALID, 3 FRAME_VALID, 4 OUT_VALID, 7:5 zero, 15:8 ERR. -/
def State.status (s : State) : Word16 :=
  statusBit s.fault 0 ||| statusBit s.hdrValid 1 ||| statusBit s.sizeValid 2 ||| statusBit s.frameValid 3 |||
    statusBit s.outValid 4 ||| (s.err.setWidth 16 <<< 8)

end Sys2Proof.Machine
end

