-- ==== Sys2Proof/Machine/Operands.lean ====
section
/-! DEFINITION. The operands. No command encodes one: "Every operand of every command is implicit state" (30_encoding.md
R93). Here are the header fields as views of HDR_RAW (10_state.md R21, 20_memory.md R69), the frame's length, the length of
each memory, and the value of each register the host can read (10_state.md R45). -/

namespace Sys2Proof.Machine

/-! ### The header fields, from the bytes `rd` of FILE or HDR_RAW (20_memory.md R69) -/

/-- magic, offset 0, 2 bytes. -/
def magicField (rd : Nat → Byte) : Nat := le16 rd 0

/-- file_size, offset 2, 4 bytes. -/
def fileSizeField (rd : Nat → Byte) : Nat := le32 rd 2

/-- pixel_data_offset, offset 10, 4 bytes. -/
def pixelDataOffsetField (rd : Nat → Byte) : Nat := le32 rd 10

/-- width_px, offset 18, 4 bytes, signed. -/
def widthPxField (rd : Nat → Byte) : Int := sext32 (le32 rd 18)

/-- height_px, offset 22, 4 bytes, signed. -/
def heightPxField (rd : Nat → Byte) : Int := sext32 (le32 rd 22)

/-- bits_per_pixel, offset 28, 2 bytes. -/
def bitsPerPixelField (rd : Nat → Byte) : Nat := le16 rd 28

/-- compression, offset 30, 4 bytes. -/
def compressionField (rd : Nat → Byte) : Nat := le32 rd 30

/-- image_size_bytes, offset 34, 4 bytes. -/
def imageSizeBytesField (rd : Nat → Byte) : Nat := le32 rd 34

/-! ### The frame and the payload -/

/-- The length byte L = FRAME[0] of the frame `f` (10_state.md R50). -/
def State.frameLenOf (s : State) (f : Memory) : Byte := s.byteOf .frame f 0

/-- The current length of each space: FILE_LEN, HDR_BYTES, BUF_LEN, PAYLOAD_LEN capped at 255, 1 + FRAME[0], OUT_LEN
(20_memory.md R70); 0 for a guarded memory whose flag is 0. -/
def State.length (s : State) : Space → Nat
  | .file => s.fileLen.toNat
  | .hdrRaw =>
    match s.hdrRaw with
    | none => 0
    | some _ => s.params.hdrBytes
  | .buf => s.bufLen.toNat
  | .msg => min s.payloadLen.toNat 255
  | .frame =>
    match s.frame with
    | none => 0
    | some f => 1 + (s.frameLenOf f).toNat
  | .out =>
    match s.out with
    | none => 0
    | some o => o.len.toNat

/-! ### The registers -/

/-- A header field's register: guarded by HDR_VALID, a view of HDR_RAW (10_state.md R21). -/
def State.headerReg (s : State) (field : (Nat → Byte) → Int) : Option Int :=
  s.hdrRaw.map (fun h => field (s.byteOf .hdrRaw h))

/-- The value of a register, absent while its guard flag is 0 (10_state.md R45); CMD "stores nothing" (R42). -/
def State.regValue (s : State) : Reg → Option Int
  | .cmd => none
  | .status => some (s.status.toNat : Int)
  | .fileLen => some (s.fileLen.toNat : Int)
  | .bufLen => some (s.bufLen.toNat : Int)
  | .payloadLen => some (s.payloadLen.toNat : Int)
  | .outLen => s.out.map (fun o => (o.len.toNat : Int))
  | .byteIndex => some (s.byteIndex.toNat : Int)
  | .frameLen => s.frame.map (fun f => ((s.frameLenOf f).toNat : Int))
  | .magic => s.headerReg (fun rd => (magicField rd : Int))
  | .fileSize => s.headerReg (fun rd => (fileSizeField rd : Int))
  | .pixelDataOffset => s.headerReg (fun rd => (pixelDataOffsetField rd : Int))
  | .widthPx => s.headerReg widthPxField
  | .heightPx => s.headerReg heightPxField
  | .bitsPerPixel => s.headerReg (fun rd => (bitsPerPixelField rd : Int))
  | .compression => s.headerReg (fun rd => (compressionField rd : Int))
  | .imageSizeBytes => s.headerReg (fun rd => (imageSizeBytesField rd : Int))
  | .rowStride => s.sizes.map (fun z => (z.rowStride.toNat : Int))
  | .heightAbs => s.sizes.map (fun z => (z.heightAbs.toNat : Int))
  | .dataSize => s.sizes.map (fun z => (z.dataSize.toNat : Int))

end Sys2Proof.Machine
end

