-- ==== Sys2Proof/Machine/HeaderModel.lean ====
section
/-! DEFINITION. The Header Model: PARSE (41_header_parse.md). -/

namespace Sys2Proof.Machine

/-- PARSE's tests in the listed order and its writes (41_header_parse.md R111 to R117): the first HDR_BYTES bytes of FILE
become HDR_RAW, HDR_VALID <- 1, SIZE_VALID <- 0 (R116). -/
def parseBody (s : State) : Except ErrorKind State :=
  if s.fileLen.toNat < s.params.hdrBytes then .error .formatTruncated
  else if magicField s.fileByte ≠ magicBM then .error .formatBadMagic
  else if bitsPerPixelField s.fileByte ≠ bppRequired then .error .formatUnsupportedBitDepth
  else if compressionField s.fileByte ≠ compressionRequired then .error .formatUnsupportedCompression
  else .ok { s with hdrRaw := some (Memory.ofFn s.params.hdrBytes s.fileByte), sizes := none }

/-- PARSE (41_header_parse.md R111). It has no stage precondition (60_exceptions.md R219). -/
def execParse (s : State) : Host.Outcome State Fault Refusal := command s (parseBody s)

end Sys2Proof.Machine
end

