-- ==== Sys2Proof/Machine/LsbCodec.lean ====
section
/-! DEFINITION. The LSB Codec: EMBED and EXTRACT (44_lsb_codec.md). -/

namespace Sys2Proof.Machine

/-- EMBED's tests and its loop (44_lsb_codec.md R176 to R181). -/
def embedBody (s : State) : Except ErrorKind State :=
  match s.frame with
  | none => .error .specSequence
  | some f =>
    let len := (s.frameLenOf f).toNat
    if s.bufLen.toNat < requiredBits len then .error .capacityOverflow
    else
      let r := embedLoop (s.freeOf .buf) (frameBits (s.byteOf .frame f) (1 + len)) 0 s.buf
      .ok { s with buf := r.1, byteIndex := BitVec.ofNat 64 r.2 }

/-- EMBED (44_lsb_codec.md R176). -/
def execEmbed (s : State) : Host.Outcome State Fault Refusal := command s (embedBody s)

/-- EXTRACT's tests and writes (44_lsb_codec.md R185 to R190). -/
def extractBody (s : State) : Except ErrorKind State :=
  if s.bufLen.toNat < minExtractBytes then .error .framingBufferTooSmall
  else
    let len := lsbByte s.bufByte 0
    if s.bufLen.toNat < requiredBits len.toNat then .error .framingTruncated
    else
      .ok
        { s with
          frame := some (frameDecode len (fun k => lsbByte s.bufByte (8 + 8 * k)))
          byteIndex := BitVec.ofNat 64 (requiredBits len.toNat) }

/-- EXTRACT (44_lsb_codec.md R185). It has no stage precondition (60_exceptions.md R219). -/
def execExtract (s : State) : Host.Outcome State Fault Refusal := command s (extractBody s)

end Sys2Proof.Machine
end

