-- ==== Sys2Proof/Machine/MessageFrame.lean ====
section
/-! DEFINITION. The Message Frame: ENCODE (43_message_frame.md). FrameDecode is `frameDecode` in Machine/Ops.lean. -/

namespace Sys2Proof.Machine

/-- ENCODE's test and writes (43_message_frame.md R162 to R164): `[length_byte] ++ payload`. -/
def encodeBody (s : State) : Except ErrorKind State :=
  if maxPayload < s.payloadLen.toNat then .error .framingTooLarge
  else .ok { s with frame := some (frameDecode (BitVec.ofNat 8 s.payloadLen.toNat) s.msgByte) }

/-- ENCODE (43_message_frame.md R162). It has no stage precondition (60_exceptions.md R219). -/
def execEncode (s : State) : Host.Outcome State Fault Refusal := command s (encodeBody s)

end Sys2Proof.Machine
end

