-- ==== Sys2Proof/Machine/PixelBuffer.lean ====
section
/-! DEFINITION. The Pixel Buffer: the size function, DSIZE, LOAD and STORE (42_pixel_buffer.md). -/

namespace Sys2Proof.Machine

/-- `row_stride = ((3*w + 3) div 4) * 4`, over the mathematical integers (42_pixel_buffer.md R133). -/
def rowStride (w : Nat) : Nat := (bytesPerPixel * w + (rowAlign - 1)) / rowAlign * rowAlign

/-- The size function (42_pixel_buffer.md R131 to R134). The results fit their registers (R134), so writing them there
loses nothing (`sizesOf_exact`, Laws/Sizes.lean). -/
def sizesOf (w h : Int) : Except ErrorKind Sizes :=
  if w < 0 then .error .specNegativeWidth
  else
    .ok
      { rowStride := BitVec.ofNat 64 (rowStride w.toNat)
        heightAbs := BitVec.ofNat 32 h.natAbs
        dataSize := BitVec.ofNat 64 (rowStride w.toNat * h.natAbs) }

/-- The sizes of the header in `h` (42_pixel_buffer.md R133, called by DSIZE and LOAD). -/
def State.headerSizes (s : State) (h : Memory) : Except ErrorKind Sizes :=
  sizesOf (widthPxField (s.byteOf .hdrRaw h)) (heightPxField (s.byteOf .hdrRaw h))

/-- DSIZE's tests and writes (42_pixel_buffer.md R137). -/
def dsizeBody (s : State) : Except ErrorKind State :=
  match s.hdrRaw with
  | none => .error .specSequence
  | some h =>
    match s.headerSizes h with
    | .error e => .error e
    | .ok z => .ok { s with sizes := some z }

/-- DSIZE (42_pixel_buffer.md R137). -/
def execDsize (s : State) : Host.Outcome State Fault Refusal := command s (dsizeBody s)

/-- LOAD's tests and writes (42_pixel_buffer.md R140 to R143). `s.fileLen.toNat - off` is max(0, FILE_LEN − off) (R141):
subtraction of naturals stops at 0. -/
def loadBody (s : State) : Except ErrorKind State :=
  match s.hdrRaw with
  | none => .error .specSequence
  | some h =>
    match s.headerSizes h with
    | .error e => .error e
    | .ok z =>
      let off := pixelDataOffsetField (s.byteOf .hdrRaw h)
      if s.fileLen.toNat - off < z.dataSize.toNat then .error .ioShortRead
      else .ok (s.replaceBuf z (fun i => s.fileByte (off + i)))

/-- LOAD (42_pixel_buffer.md R140). -/
def execLoad (s : State) : Host.Outcome State Fault Refusal := command s (loadBody s)

/-- STORE's test and writes (42_pixel_buffer.md R146 to R148): the header verbatim, then the buffer's bytes; no field is
recomputed and no length is checked (R150). -/
def storeBody (s : State) : Except ErrorKind State :=
  match s.hdrRaw with
  | none => .error .specSequence
  | some h =>
    .ok
      { s with
        out := some
          { len := BitVec.ofNat 64 (s.params.hdrBytes + s.bufLen.toNat)
            mem := Memory.ofFn (s.params.hdrBytes + s.bufLen.toNat) (fun i =>
              if i < s.params.hdrBytes then s.byteOf .hdrRaw h i else s.bufByte (i - s.params.hdrBytes)) } }

/-- STORE (42_pixel_buffer.md R146). -/
def execStore (s : State) : Host.Outcome State Fault Refusal := command s (storeBody s)

end Sys2Proof.Machine
end

