-- ==== Sys2Proof/WellFormed.lean ====
section
/-! DEFINITION. Well-formedness: of a command (no operand, so nothing to check), of the parameters (00_scope.md R9, R10),
and of a host action as far as it can be told without the state (the host rules of 70_reset_and_hazards.md R261). -/

namespace Sys2Proof

/-- A command has no operand field (30_encoding.md R93), so every command is well formed. -/
def Instr.wf : Instr → Bool
  | .parse => true
  | .dsize => true
  | .load => true
  | .store => true
  | .encode => true
  | .embed => true
  | .extract => true

/-- The constraints on the parameters: HDR_BYTES ≥ 38 (00_scope.md R9), FILE_CAP ≥ HDR_BYTES, BUF_CAP ≥ FILE_CAP and
OUT_CAP ≥ HDR_BYTES + BUF_CAP (R10). The last clause is DEDUCED (log 2): OUT_LEN is a 64-bit register (R11) that holds up
to HDR_BYTES + BUF_CAP (42_pixel_buffer.md R149) and nothing wraps (R13). -/
abbrev Params.wf (p : Params) : Prop :=
  38 ≤ p.hdrBytes ∧ p.hdrBytes ≤ p.fileCap ∧ p.fileCap ≤ p.bufCap ∧ p.hdrBytes + p.bufCap ≤ p.outCap ∧
    p.outCap < 2 ^ 64

namespace Machine

/-- The host rules that need no look at the state (70_reset_and_hazards.md R261 (a), (c), (d), (e)), and that a value fits
the register it is written to (log 6). -/
def HostAction.wf (p : Params) : HostAction → Bool
  | .readReg n =>
    match Reg.ofNumber n with
    | none => false
    | some r => r != .cmd
  | .writeReg n v =>
    match Reg.ofNumber n with
    | none => false
    | some r =>
      r.hostWritable && decide (v < 2 ^ r.width) && (r != .fileLen || decide (v ≤ p.fileCap)) &&
        (r != .bufLen || decide (v ≤ p.bufCap))
  | .readMem sp a => decide (a < sp.size p)
  | .writeMem sp a _ => sp.hostWritable && decide (a < sp.size p)
  | .reset => true
  | .issue _ => true

end Machine

end Sys2Proof
end

