-- ==== Sys2Proof/Machine/HostPort.lean ====
section
/-! DEFINITION. The host's actions (70_reset_and_hazards.md R258) and the host rules (R261). Host actions do not look at
FAULT, but for the issue of a command: "Host reads stay allowed, and so do host writes" (60_exceptions.md R224). -/

namespace Sys2Proof.Machine

/-- The issue of a command byte, in the order of 60_exceptions.md R215: sticky fault (ignore), reserved code
(IllegalCommand, 30_encoding.md R95), the command. -/
def issue (c : Byte) (s : State) : Host.Outcome State Fault Refusal :=
  if s.fault then .next s
  else
    match decode c with
    | .error _ => .next (s.raise .specIllegalCommand)
    | .ok i => exec i s

/-- A host register read (10_state.md R45; 70_reset_and_hazards.md R261 (b), (c), (e)). -/
def hostReadReg (n : Byte) (s : State) : Host.Outcome State Fault Refusal :=
  match Reg.ofNumber n with
  | none => .refused (.reservedRegister n)
  | some r =>
    if r = .cmd then .refused .readOfCmd
    else
      match s.regValue r with
      | none => .refused (.guardedRegister r)
      | some v => .next (s.reply (.reg r v))

/-- A host write of `v` to the register `r`: FILE_LEN, BUF_LEN and PAYLOAD_LEN take the value (10_state.md R31 to R33), CMD
issues the command (R42), the others are read-only (70_reset_and_hazards.md R261 (a), (d)). -/
def hostWriteTo (r : Reg) (v : Nat) (s : State) : Host.Outcome State Fault Refusal :=
  if !r.hostWritable then .refused (.readOnlyRegister r)
  else if 2 ^ r.width ≤ v then .refused (.valueTooWide r v)
  else
    match r with
    | .cmd => issue (BitVec.ofNat 8 v) s
    | .fileLen =>
      if s.params.fileCap < v then .refused (.lengthAboveCapacity .fileLen v)
      else .next { s with fileLen := BitVec.ofNat 64 v }
    | .bufLen =>
      if s.params.bufCap < v then .refused (.lengthAboveCapacity .bufLen v)
      else .next (s.setBufLen (BitVec.ofNat 64 v))
    | .payloadLen => .next { s with payloadLen := BitVec.ofNat 32 v }
    | _ => .refused (.readOnlyRegister r)

/-- A host register write, the register selected by number (10_state.md R45). -/
def hostWriteReg (n : Byte) (v : Nat) (s : State) : Host.Outcome State Fault Refusal :=
  match Reg.ofNumber n with
  | none => .refused (.reservedRegister n)
  | some r => hostWriteTo r v s

/-- A host memory byte read (20_memory.md R70; 70_reset_and_hazards.md R261 (b), (e), (f)). A byte at or beyond the
memory's current length reads as any value, a fresh one (log 5). -/
def hostReadMem (sp : Space) (a : Nat) (s : State) : Host.Outcome State Fault Refusal :=
  if sp.size s.params ≤ a then .refused (.noSuchIndex sp a)
  else
    match s.byteAt sp a with
    | none => .refused (.guardedMemory sp)
    | some b =>
      if a < s.length sp then .next (s.reply (.byte sp a b))
      else .next { s.reply (.byte sp a (Config.strayByte s.strays)) with strays := s.strays + 1 }

/-- A host memory byte write: FILE, BUF and MSG (20_memory.md R70; 70_reset_and_hazards.md R261 (d), (e)). -/
def hostWriteMem (sp : Space) (a : Nat) (b : Byte) (s : State) : Host.Outcome State Fault Refusal :=
  if sp.size s.params ≤ a then .refused (.noSuchIndex sp a)
  else
    match sp with
    | .file => .next { s with file := s.file.write a b }
    | .buf => .next { s with buf := s.buf.write a b }
    | .msg => .next { s with msg := s.msg.write a b }
    | .hdrRaw => .refused (.readOnlyMemory .hdrRaw)
    | .frame => .refused (.readOnlyMemory .frame)
    | .out => .refused (.readOnlyMemory .out)

/-- One step of a run (70_reset_and_hazards.md R258). -/
def act (a : HostAction) (s : State) : Host.Outcome State Fault Refusal :=
  match a with
  | .readReg n => hostReadReg n s
  | .writeReg n v => hostWriteReg n v s
  | .readMem sp i => hostReadMem sp i s
  | .writeMem sp i b => hostWriteMem sp i b s
  | .reset => .next s.resetEvent
  | .issue c => issue c s

/-- The bytes of `bs` written by the host to `sp` from index `a` on. -/
def writeBytes (sp : Space) : Nat → List Byte → List HostAction
  | _, [] => []
  | a, b :: bs => .writeMem sp a b :: writeBytes sp (a + 1) bs

/-- The bytes of `sp` at indices a to a + n - 1 read by the host. -/
def readBytes (sp : Space) : Nat → Nat → List HostAction
  | _, 0 => []
  | a, n + 1 => .readMem sp a :: readBytes sp (a + 1) n

end Sys2Proof.Machine
end

