-- ==== Sys2Proof/Machine/Step.lean ====
section
/-! DEFINITION. One step of the machine: the host's next action (70_reset_and_hazards.md R258). -/

namespace Sys2Proof.Machine

/-- "The block never takes a step of its own accord: between host actions nothing changes" (70_reset_and_hazards.md R258):
with no action to come the state stays; otherwise the first action is taken off the list and performed. BMPSTEG fetches no
instruction (10_state.md R35): a command comes as the action that writes its byte to CMD. -/
def step (s : State) : Host.Outcome State Fault Refusal :=
  match s.pending with
  | [] => .next s
  | a :: rest => act a { s with pending := rest }

/-- The command whose bits are `w`, put where `step` takes its next one from: the head of the host's coming actions. -/
def State.withFetchWord (s : State) (nbits w : Nat) : State :=
  { s with pending := .issue (commandByte nbits w) :: s.pending }

end Sys2Proof.Machine
end

