-- ==== Sys2Proof/Machine/Flows.lean ====
section
/-! DEFINITION. The pseudo-instructions: the five host flows of 30_encoding.md R99 to R103 as lists of host actions, and the
exit status of 60_exceptions.md R231. Each flow starts from reset. -/

namespace Sys2Proof.Machine

/-- The five flows of the source's CLI (30_encoding.md section 5). -/
inductive Flow where
  /-- `-h`: print header fields (R99). -/
  | showhdr
  /-- `-o`: dump the pixel region (R100). -/
  | dump
  /-- `-g`: grayscale (R101). -/
  | gray
  /-- `-e`: hide a message (R102). -/
  | hide
  /-- `-d`: reveal a message (R103). -/
  | reveal
  deriving DecidableEq, Repr

/-- The commands of a flow; its encoding is `encodeSeq` of them: 01, 01 03, 01 03 04, 01 03 05 06 04, 01 03 07. -/
def Flow.commands : Flow → List Instr
  | .showhdr => [.parse]
  | .dump => [.parse, .load]
  | .gray => [.parse, .load, .store]
  | .hide => [.parse, .load, .encode, .embed, .store]
  | .reveal => [.parse, .load, .extract]

/-- The host issues a sequence of commands. -/
def issueAll (is : List Instr) : List HostAction := is.map (fun i => .issue (encode i))

/-- `host: FILE[0..n-1] <- the n bytes of <bmp>; FILE_LEN <- n` (R99). -/
def fileSetup (bmp : List Byte) : List HostAction :=
  writeBytes .file 0 bmp ++ [.writeReg Reg.fileLen.number bmp.length]

/-- `host: PAYLOAD_LEN <- m ...; MSG[0..min(m,255)-1] <- its first bytes` (R102). -/
def messageSetup (message : List Byte) : List HostAction :=
  .writeReg Reg.payloadLen.number message.length :: writeBytes .msg 0 (message.take 255)

/-- A flow up to the host's first look at FAULT (R99 to R103). GRAY stops before its STORE. -/
def Flow.prologue (bmp message : List Byte) : Flow → List HostAction
  | .showhdr => fileSetup bmp ++ issueAll Flow.showhdr.commands
  | .dump => fileSetup bmp ++ issueAll Flow.dump.commands
  | .gray => fileSetup bmp ++ issueAll [.parse, .load]
  | .hide => fileSetup bmp ++ messageSetup message ++ issueAll Flow.hide.commands
  | .reveal => fileSetup bmp ++ issueAll Flow.reveal.commands

/-- GRAY's second part, from the state `s` its prologue reached: "if FAULT = 0, rewrite BUF[0..BUF_LEN-1] with the grayscale
transform (outside BMPSTEG)", then STORE (R101). `pixels` is what the host computed. The other flows have none. -/
def Flow.second (s : State) (pixels : List Byte) : Flow → List HostAction
  | .gray => (if s.fault then [] else writeBytes .buf 0 pixels) ++ issueAll [.store]
  | .showhdr => []
  | .dump => []
  | .hide => []
  | .reveal => []

/-- What the host reads at the end of a flow when FAULT = 0 (R99 to R103). -/
def Flow.readback (s : State) (f : Flow) : List HostAction :=
  if s.fault then []
  else
    match f with
    | .showhdr =>
      [Reg.magic, .fileSize, .pixelDataOffset, .widthPx, .heightPx, .bitsPerPixel, .compression, .imageSizeBytes].map
        (fun r => .readReg r.number)
    | .dump => .readReg Reg.bufLen.number :: readBytes .buf 0 (s.length .buf)
    | .gray => .readReg Reg.outLen.number :: readBytes .out 0 (s.length .out)
    | .hide => .readReg Reg.outLen.number :: readBytes .out 0 (s.length .out)
    | .reveal => .readReg Reg.frameLen.number :: readBytes .frame 1 (s.length .frame - 1)

/-- "A host that reproduces the CLI maps FAULT = 1 at the end of the flow to status 1 and FAULT = 0 to status 0"
(60_exceptions.md R231). -/
def exitStatus (s : State) : Nat := if s.fault then 1 else 0

end Sys2Proof.Machine
end

