-- ==== Sys2Proof/Safety.lean ====
section
/-! DEFINITION. What counts as a legal state and a successful run of BMPSTEG (10_state.md R52, 70_reset_and_hazards.md R259),
and the words the statements use. -/

namespace Sys2Proof.Machine

/-- `m` lists exactly the indices 0 to n - 1. -/
abbrev Memory.covers (m : Memory) (n : Nat) : Prop := m.map Prod.fst = List.range n

/-- `m` is canonical and lists no index at or beyond `cap`. -/
abbrev Memory.within (m : Memory) (cap : Nat) : Prop := m.wf ∧ ∀ c ∈ m, c.1 < cap

/-- The header in HDR_RAW is a valid one: all HDR_BYTES bytes are there and the three constraints hold (10_state.md R47,
R52 (a)). -/
abbrev State.headerOk (s : State) (h : Memory) : Prop :=
  h.covers s.params.hdrBytes ∧ magicField (s.byteOf .hdrRaw h) = 0x4D42 ∧
    bitsPerPixelField (s.byteOf .hdrRaw h) = 24 ∧ compressionField (s.byteOf .hdrRaw h) = 0

/-- The three size registers are those of the header (10_state.md R52 (b)). -/
abbrev State.sizesOk (s : State) (h : Memory) (z : Sizes) : Prop :=
  0 ≤ widthPxField (s.byteOf .hdrRaw h) ∧
    z.rowStride.toNat = (3 * (widthPxField (s.byteOf .hdrRaw h)).toNat + 3) / 4 * 4 ∧
    z.heightAbs.toNat = (heightPxField (s.byteOf .hdrRaw h)).natAbs ∧
    z.dataSize.toNat = z.rowStride.toNat * z.heightAbs.toNat

/-- The invariant of BMPSTEG: the parameters' constraints, memories in canonical form within their sizes (10_state.md R46 to
R51), lengths within capacities (R52 (f)), and R52 (a) to (d). R52 (e) holds of every state by the form of State. -/
structure State.Inv (s : State) : Prop where
  params_wf : s.params.wf
  file_within : s.file.within s.params.fileCap
  buf_within : s.buf.within s.params.bufCap
  msg_within : s.msg.within 255
  fileLen_le : s.fileLen.toNat ≤ s.params.fileCap
  bufLen_le : s.bufLen.toNat ≤ s.params.bufCap
  header_ok : ∀ h, s.hdrRaw = some h → s.headerOk h
  sizes_ok : ∀ z, s.sizes = some z → ∃ h, s.hdrRaw = some h ∧ s.sizesOk h z
  frame_ok : ∀ f, s.frame = some f → f.covers (1 + (s.frameLenOf f).toNat)
  out_ok : ∀ o, s.out = some o →
    o.mem.covers o.len.toNat ∧ s.params.hdrBytes ≤ o.len.toNat ∧ o.len.toNat ≤ s.params.outCap

/-- `row_stride = ceil(width*3 / 4) * 4` as the source writes it, over the mathematical numbers (42_pixel_buffer.md R130). -/
def specStride (w : Int) : Int := ⌈(w * 3 : ℚ) / 4⌉ * 4

/-- `data_size = row_stride * height` with `height = |height_px|` (42_pixel_buffer.md R130). -/
def specDataSize (w h : Int) : Int := specStride w * |h|

/-- "The end state of a run is successful when FAULT = 0 and failed when FAULT = 1" (70_reset_and_hazards.md R259). -/
abbrev State.successful (s : State) : Prop := s.fault = false

/-- The command byte the next step writes to CMD, if it does: by the action that issues it or by a write of register 0x00
(10_state.md R42). -/
def State.nextByte (s : State) : Option Byte :=
  match s.pending with
  | .issue c :: _ => some c
  | .writeReg n v :: _ => if n = Reg.cmd.number ∧ v < 256 then some (BitVec.ofNat 8 v) else none
  | _ => none

/-- The command the next step runs: none while FAULT = 1 (60_exceptions.md R224), for a reserved code, and for a step that
is no issue. -/
def State.nextCommand (s : State) : Option Instr :=
  if s.fault then none
  else
    match s.nextByte with
    | none => none
    | some c =>
      match decode c with
      | .ok i => some i
      | .error _ => none

/-- The next step is a reset. -/
def State.nextIsReset (s : State) : Bool :=
  match s.pending with
  | .reset :: _ => true
  | _ => false

/-- `s` with the state that command `i` "may write when it succeeds" (30_encoding.md R93, column out) and STATUS's fault
part taken from `t`: everything else is `s`'s. Which bits of BUF those are is `outMask`. `bufDropped` is the model's own
(log 4). -/
def outColumn (i : Instr) (s t : State) : State :=
  match i with
  | .parse => { s with hdrRaw := t.hdrRaw, sizes := t.sizes, error := t.error }
  | .dsize => { s with sizes := t.sizes, error := t.error }
  | .load => { s with buf := t.buf, bufLen := t.bufLen, sizes := t.sizes, bufDropped := t.bufDropped, error := t.error }
  | .store => { s with out := t.out, error := t.error }
  | .encode => { s with frame := t.frame, error := t.error }
  | .embed => { s with buf := t.buf, byteIndex := t.byteIndex, error := t.error }
  | .extract => { s with frame := t.frame, byteIndex := t.byteIndex, error := t.error }

/-- The bits of BUF[j] that command `i` "may write when it succeeds" (30_encoding.md R93, column out): all for LOAD, bit 0 of
BUF[0..8·(1+L)−1] for EMBED, none for the others. -/
def outMask (i : Instr) (s : State) (j : Nat) : Byte :=
  match i with
  | .load => 0xFF
  | .embed =>
    match s.frame with
    | none => 0x00
    | some f => if j < requiredBits (s.frameLenOf f).toNat then 0x01 else 0x00
  | .parse => 0x00
  | .dsize => 0x00
  | .store => 0x00
  | .encode => 0x00
  | .extract => 0x00

end Sys2Proof.Machine
end

