-- ==== Sys2Proof/Certificates/Slice0/Obligations.lean ====
section
/-! DEFINITION. The statements for the provers. Each docstring names the rule of spec/ it comes from. -/

open Sys2Proof Sys2Proof.Machine

/-! ## Encoding and the step -/

/-- 30_encoding.md R94: the opcode map. -/
def Obligations.OpcodeMapSelectsTheSevenCommands : Prop :=
  (∀ b : Byte, decode b = .ok .parse ↔ b &&& 0xFF = 0x01) ∧
  (∀ b : Byte, decode b = .ok .dsize ↔ b &&& 0xFF = 0x02) ∧
  (∀ b : Byte, decode b = .ok .load ↔ b &&& 0xFF = 0x03) ∧
  (∀ b : Byte, decode b = .ok .store ↔ b &&& 0xFF = 0x04) ∧
  (∀ b : Byte, decode b = .ok .encode ↔ b &&& 0xFF = 0x05) ∧
  (∀ b : Byte, decode b = .ok .embed ↔ b &&& 0xFF = 0x06) ∧
  (∀ b : Byte, decode b = .ok .extract ↔ b &&& 0xFF = 0x07)

/-- 30_encoding.md sections 1, 2 and 4 (R90, R94, R97): decoding gives back every encoded command and every encoded sequence
of commands, a byte that decodes is its command's code, and a sequence of bytes that decodes is that sequence's encoding. -/
def Obligations.DecodeAndEncodeAgreeOnSequences : Prop :=
  (∀ i : Instr, i.wf = true → decode (encode i) = .ok i) ∧
  (∀ is : List Instr, decodeSeq (encodeSeq is) = .ok is) ∧
  (∀ (bs : List Byte) (is : List Instr), decodeSeq bs = .ok is → encodeSeq is = bs)

/-- 30_encoding.md R95: a reserved code raises IllegalCommand (0xE0) while FAULT = 0 and is ignored while FAULT = 1. -/
def Obligations.ReservedCodesRaiseIllegalCommand : Prop :=
  ∀ (c : Byte) (s : State), c = 0x00 ∨ 0x08 ≤ c.toNat →
    (s.fault = false →
      ∃ t, issue c s = .next t ∧ t.fault = true ∧ t.err = 0xE0 ∧ t = { s with error := t.error }) ∧
    (s.fault = true → issue c s = .next s)

/-- 60_exceptions.md section 2 (R215) and 10_state.md R42: a step whose action issues the byte `b`, or writes it to CMD,
takes that action off the host's list and then, in this order: ignores it while FAULT = 1, raises IllegalCommand when it is
reserved, runs the command it decodes to. That the action stands in a list of the state is the model's choice (log 1). -/
def Obligations.StepRunsTheDecodedCommand : Prop :=
  ∀ (s : State) (b : Byte) (rest : List HostAction),
    (s.pending = .issue b :: rest ∨ ∃ v, s.pending = .writeReg 0x00 v :: rest ∧ v < 256 ∧ b = BitVec.ofNat 8 v) →
    (s.fault = true → step s = .next { s with pending := rest }) ∧
    (s.fault = false → ∀ e, decode b = .error e →
      step s = .next (State.raise { s with pending := rest } .specIllegalCommand)) ∧
    (s.fault = false → ∀ i, decode b = .ok i → step s = exec i { s with pending := rest })

/-- 70_reset_and_hazards.md section 3 (R258) and log 1: the word put where the step takes its next command from is run by
the very next step, whatever bits lie above its `nbits`; and with no action to come, nothing changes. -/
def Obligations.FetchedWordRunsNextAndIdleBlockStays : Prop :=
  (∀ (s : State) (w : Nat) (i : Instr), s.fault = false → decodeTableWord 8 w = some i →
    step (s.withFetchWord 8 w) = exec i s) ∧
  (∀ w w' : Nat, w % 256 = w' % 256 → decodeTableWord 8 w = decodeTableWord 8 w') ∧
  (∀ s : State, s.pending = [] → step s = .next s)

/-- 70_reset_and_hazards.md R260 (an inference of the spec): every command answers a next state, in every state. -/
def Obligations.EveryCommandAnswersANextState : Prop :=
  ∀ (i : Instr) (s : State), ∃ t, exec i s = .next t

/-! ## Faults -/

/-- 60_exceptions.md R221: a command that raises while FAULT = 0 sets FAULT and ERR and changes no other register, flag or
memory byte. -/
def Obligations.FaultEntryChangesOnlyFaultAndErr : Prop :=
  ∀ (i : Instr) (s t : State), s.fault = false → exec i s = .next t → t.fault = true →
    t.err ≠ 0x00 ∧ t = { s with error := t.error } ∧ (∀ r, r ≠ .status → t.regValue r = s.regValue r) ∧
      (∀ sp a, t.byteAt sp a = s.byteAt sp a)

/-- 60_exceptions.md section 1 (R212, an inference of the spec): which codes each command can leave in ERR. -/
def Obligations.EachCommandRaisesOnlyItsOwnCodes : Prop :=
  ∀ (i : Instr) (s t : State), s.fault = false → exec i s = .next t → t.fault = true →
    t.err ∈ (match i with
      | .parse => [0x10, 0x11, 0x12, 0x13]
      | .dsize => [0xE1, 0xE2]
      | .load => [0xE1, 0xE2, 0x20]
      | .store => [0xE1]
      | .encode => [0x30]
      | .embed => [0xE1, 0x40]
      | .extract => [0x31, 0x32] : List Byte)

/-- 60_exceptions.md R219: DSIZE, LOAD and STORE without a header and EMBED without a frame raise Sequence (0xE1); PARSE,
ENCODE and EXTRACT never do. -/
def Obligations.MissingStageRaisesSequence : Prop :=
  (∀ s : State, s.fault = false → s.hdrValid = false → ∀ i ∈ [Instr.dsize, .load, .store],
    ∃ t, exec i s = .next t ∧ t.fault = true ∧ t.err = 0xE1 ∧ t = { s with error := t.error }) ∧
  (∀ s : State, s.fault = false → s.frameValid = false →
    ∃ t, exec .embed s = .next t ∧ t.fault = true ∧ t.err = 0xE1 ∧ t = { s with error := t.error }) ∧
  (∀ s t : State, s.fault = false → ∀ i ∈ [Instr.parse, .encode, .extract], exec i s = .next t → t.err ≠ 0xE1)

/-- 60_exceptions.md R224: while FAULT = 1 every write to CMD, of any byte and however many, changes nothing but the host's
own list; host reads and writes stay allowed, and a host write leaves FAULT, ERR and every result as they are. -/
def Obligations.FaultIsSticky : Prop :=
  (∀ (s : State) (writes rest : List HostAction), s.fault = true →
    (∀ a ∈ writes, (∃ c, a = .issue c) ∨ ∃ v < 256, a = .writeReg 0x00 v) → s.pending = writes ++ rest →
    Sys2Proof.core.run writes.length s = .next { s with pending := rest }) ∧
  (∀ (s : State) (n : Byte) (r : Reg) (v : Int), s.fault = true → Reg.ofNumber n = some r → r ≠ .cmd →
    s.regValue r = some v → ∃ t, act (.readReg n) s = .next t ∧ t.replies = .reg r v :: s.replies) ∧
  (∀ (s : State) (sp : Space) (i : Nat) (b : Byte), s.fault = true → i < s.length sp → i < sp.size s.params →
    s.byteAt sp i = some b → ∃ t, act (.readMem sp i) s = .next t ∧ t.replies = .byte sp i b :: s.replies) ∧
  (∀ (s : State) (a : HostAction), s.fault = true → (∀ n, a ≠ .readReg n) → (∀ sp i, a ≠ .readMem sp i) → a ≠ .reset →
    a.wf s.params = true →
    ∃ t, act a s = .next t ∧ t.error = s.error ∧ t.hdrRaw = s.hdrRaw ∧ t.sizes = s.sizes ∧ t.frame = s.frame ∧
      t.out = s.out ∧ t.byteIndex = s.byteIndex)

/-- 10_state.md R36, the table of what sets and clears each flag, over every step of the machine. -/
def Obligations.FlagsChangeOnlyAsTheTableSays : Prop :=
  ∀ s t : State, step s = .next t →
    (s.fault = false → t.fault = true → s.nextByte ≠ none) ∧
    (s.fault = true → t.fault = false → s.nextIsReset = true) ∧
    (s.hdrValid = false → t.hdrValid = true → s.nextCommand = some .parse ∧ t.fault = false) ∧
    (s.hdrValid = true → t.hdrValid = false → s.nextIsReset = true) ∧
    (s.sizeValid = false → t.sizeValid = true →
      (s.nextCommand = some .dsize ∨ s.nextCommand = some .load) ∧ t.fault = false) ∧
    (s.sizeValid = true → t.sizeValid = false →
      (s.nextCommand = some .parse ∧ t.fault = false) ∨ s.nextIsReset = true) ∧
    (s.frameValid = false → t.frameValid = true →
      (s.nextCommand = some .encode ∨ s.nextCommand = some .extract) ∧ t.fault = false) ∧
    (s.frameValid = true → t.frameValid = false → s.nextIsReset = true) ∧
    (s.outValid = false → t.outValid = true → s.nextCommand = some .store ∧ t.fault = false) ∧
    (s.outValid = true → t.outValid = false → s.nextIsReset = true)

/-- 10_state.md section 4 (R43, R44): the fields of STATUS, that it always reads and never takes a host write, and that ERR is
0x00 exactly while FAULT = 0. That ERR is 0x00 only then is R44's own inference (from R211), and that a write of any value,
a too wide one among them, is refused under the name of the read-only register is the model's choice (log 6). -/
def Obligations.StatusFieldsAndErr : Prop :=
  ∀ s : State,
    s.regValue .status = some (s.status.toNat : Int) ∧
    (∀ v, act (.writeReg 0x01 v) s = .refused (.readOnlyRegister .status)) ∧
    s.status.getLsbD 0 = s.fault ∧ s.status.getLsbD 1 = s.hdrValid ∧ s.status.getLsbD 2 = s.sizeValid ∧
    s.status.getLsbD 3 = s.frameValid ∧ s.status.getLsbD 4 = s.outValid ∧ s.status.getLsbD 5 = false ∧
    s.status.getLsbD 6 = false ∧ s.status.getLsbD 7 = false ∧ s.status.extractLsb' 8 8 = s.err ∧
    (s.err = 0x00 ↔ s.fault = false)

/-! ## Reset and invariants -/

/-- 70_reset_and_hazards.md R250: the reset event, at any point of a run and in any state. That the
parameters, the host's list and what it has read stay is the model's choice (log 10, with logs 1 and 2). -/
def Obligations.ResetClearsTheBlock : Prop :=
  ∀ (s : State) (rest : List HostAction), s.pending = .reset :: rest →
    ∃ t, step s = .next t ∧ t.status = 0x0000 ∧ t.fileLen = 0 ∧ t.bufLen = 0 ∧ t.payloadLen = 0 ∧ t.byteIndex = 0 ∧
      (∀ r ∈ [Reg.outLen, .frameLen, .magic, .fileSize, .pixelDataOffset, .widthPx, .heightPx, .bitsPerPixel, .compression,
        .imageSizeBytes, .rowStride, .heightAbs, .dataSize], t.regValue r = none) ∧
      (∀ sp ∈ [Space.hdrRaw, .frame, .out], ∀ a, t.byteAt sp a = none) ∧
      t.params = s.params ∧ t.pending = rest ∧ t.replies = s.replies

/-- 70_reset_and_hazards.md section 1 (R254, an inference of the spec): what each command does right after reset, for every
implementation's parameters. -/
def Obligations.CommandsRightAfterReset : Prop :=
  ∀ p : Params, p.wf →
    exec .parse (State.resetOf p) = .next ((State.resetOf p).raise .formatTruncated) ∧
    (∀ i ∈ [Instr.dsize, .load, .store, .embed],
      exec i (State.resetOf p) = .next ((State.resetOf p).raise .specSequence)) ∧
    exec .extract (State.resetOf p) = .next ((State.resetOf p).raise .framingBufferTooSmall) ∧
    ∃ t, exec .encode (State.resetOf p) = .next t ∧ t.status = 0x0008 ∧ t.regValue .frameLen = some 0 ∧
      t.length .frame = 1 ∧ t.byteAt .frame 0 = some 0x00

/-- 10_state.md section 6 (R52 (a) to (d) and (f), inferences of the spec): the state after reset meets the invariant. -/
def Obligations.ResetMeetsTheInvariant : Prop :=
  (∀ p : Params, p.wf → (State.resetOf p).Inv) ∧ State.reset.Inv

/-- 10_state.md section 6 (R52 (a) to (d) and (f), inferences of the spec): every step of the machine, command or host
action, keeps the invariant, and no step changes the parameters. -/
def Obligations.EveryStepKeepsTheInvariant : Prop :=
  ∀ s t : State, s.Inv → step s = .next t → t.Inv ∧ t.params = s.params

/-- 30_encoding.md section 1 (R93, column out): a command changes nothing outside its out column and STATUS, in every state.
Of BUF, EMBED changes at most bit 0 of the first 8·(1 + L) bytes, LOAD any byte, the others none; no command writes FILE,
MSG, FILE_LEN or PAYLOAD_LEN; and a command that ends with FAULT = 1 changes at most the error. -/
def Obligations.CommandsWriteOnlyTheirOutColumn : Prop :=
  ∀ (i : Instr) (s t : State), exec i s = .next t →
    t = outColumn i s t ∧
    (∀ j, t.bufByte j &&& ~~~(outMask i s j) = s.bufByte j &&& ~~~(outMask i s j)) ∧
    (∀ sp a, sp = .file ∨ sp = .msg → t.byteAt sp a = s.byteAt sp a) ∧
    (t.fault = true → t = { s with error := t.error })

/-! ## PARSE -/

/-- 41_header_parse.md R112 to R115 and R117: each of the four faults arises exactly when its own test is the first that
fails. -/
def Obligations.ParseFaultsInListedOrder : Prop :=
  ∀ s : State, s.fault = false →
    let long := s.params.hdrBytes ≤ s.fileLen.toNat
    let magicOk := s.fileByte 0 = 0x42 ∧ s.fileByte 1 = 0x4D
    let depthOk := s.fileByte 28 = 0x18 ∧ s.fileByte 29 = 0x00
    let compressionOk := s.fileByte 30 = 0 ∧ s.fileByte 31 = 0 ∧ s.fileByte 32 = 0 ∧ s.fileByte 33 = 0
    (exec .parse s = .next (s.raise .formatTruncated) ↔ ¬ long) ∧
    (exec .parse s = .next (s.raise .formatBadMagic) ↔ long ∧ ¬ magicOk) ∧
    (exec .parse s = .next (s.raise .formatUnsupportedBitDepth) ↔ long ∧ magicOk ∧ ¬ depthOk) ∧
    (exec .parse s = .next (s.raise .formatUnsupportedCompression) ↔ long ∧ magicOk ∧ depthOk ∧ ¬ compressionOk) ∧
    (s.raise .formatTruncated).err = 0x10 ∧ (s.raise .formatBadMagic).err = 0x11 ∧
    (s.raise .formatUnsupportedBitDepth).err = 0x12 ∧ (s.raise .formatUnsupportedCompression).err = 0x13

/-- 41_header_parse.md R116 with 20_memory.md R69: a PARSE that passes its tests copies the header; the eight fields hold
the file's values; nothing else changes. HDR_BYTES ≥ 38 is the parameter's own constraint (00_scope.md R9). -/
def Obligations.ParseMakesTheHeaderAvailable : Prop :=
  ∀ s : State, s.fault = false → 38 ≤ s.params.hdrBytes → s.params.hdrBytes ≤ s.fileLen.toNat →
    s.fileByte 0 = 0x42 → s.fileByte 1 = 0x4D → s.fileByte 28 = 0x18 → s.fileByte 29 = 0x00 →
    (∀ a, 30 ≤ a → a < 34 → s.fileByte a = 0x00) →
    ∃ t, exec .parse s = .next t ∧ t.fault = false ∧ t.hdrValid = true ∧ t.sizeValid = false ∧
      (∀ a < s.params.hdrBytes, t.byteAt .hdrRaw a = some (s.fileByte a)) ∧
      t.regValue .magic = some 0x4D42 ∧
      t.regValue .fileSize = some (le32 s.fileByte 2) ∧
      t.regValue .pixelDataOffset = some (le32 s.fileByte 10) ∧
      t.regValue .widthPx = some (sext32 (le32 s.fileByte 18)) ∧
      t.regValue .heightPx = some (sext32 (le32 s.fileByte 22)) ∧
      t.regValue .bitsPerPixel = some 24 ∧
      t.regValue .compression = some 0 ∧
      t.regValue .imageSizeBytes = some (le32 s.fileByte 34) ∧
      t = { s with hdrRaw := t.hdrRaw, sizes := none } ∧
      (∀ sp a, sp ≠ .hdrRaw → t.byteAt sp a = s.byteAt sp a)

/-- 41_header_parse.md section 2 (R119): PARSE's outcome depends on no byte but the three fields it validates, and on
FILE_LEN only through FILE_LEN ≥ HDR_BYTES. -/
def Obligations.ParseOutcomeIgnoresUncheckedBytes : Prop :=
  ∀ s s' t t' : State, s.fault = false → s'.fault = false → s'.params = s.params →
    (s.params.hdrBytes ≤ s.fileLen.toNat ↔ s.params.hdrBytes ≤ s'.fileLen.toNat) →
    (∀ a ∈ [0, 1, 28, 29, 30, 31, 32, 33], s'.fileByte a = s.fileByte a) →
    exec .parse s = .next t → exec .parse s' = .next t' → t'.err = t.err

/-! ## DSIZE, LOAD, STORE -/

/-- 42_pixel_buffer.md R137, R133, R132: DSIZE gives the three sizes of the formula over the mathematical integers (so no
register wraps), for every width that is not negative and every height, and changes nothing else; without a header it
raises Sequence, for a negative width NegativeWidth. -/
def Obligations.DsizeComputesTheExactSizes : Prop :=
  ∀ s : State, s.fault = false →
    (s.hdrValid = false → exec .dsize s = .next (s.raise .specSequence)) ∧
    (∀ w h, s.regValue .widthPx = some w → s.regValue .heightPx = some h →
      (w < 0 → exec .dsize s = .next (s.raise .specNegativeWidth)) ∧
      (0 ≤ w → ∃ t, exec .dsize s = .next t ∧ t.fault = false ∧ t.sizeValid = true ∧
        t.regValue .rowStride = some (specStride w) ∧ t.regValue .heightAbs = some |h| ∧
        t.regValue .dataSize = some (specDataSize w h) ∧ t = { s with sizes := t.sizes } ∧
        (∀ sp a, t.byteAt sp a = s.byteAt sp a)))

/-- 42_pixel_buffer.md R131: a negative width has no size, for DSIZE and LOAD alike, code 0xE2; PARSE never raises it. -/
def Obligations.NegativeWidthHasNoSize : Prop :=
  (∀ (s : State) (w : Int), s.fault = false → s.regValue .widthPx = some w → ∀ i ∈ [Instr.dsize, .load],
    (exec i s = .next (s.raise .specNegativeWidth) ↔ w < 0)) ∧
  (∀ s : State, (s.raise .specNegativeWidth).err = 0xE2) ∧
  (∀ s t : State, s.fault = false → exec .parse s = .next t → t.err ≠ 0xE2)

/-- 42_pixel_buffer.md section 2 (R135, inferences of the spec): the stride register is the least multiple of 4 that is at
least 3·w, and the padding is w mod 4. -/
def Obligations.StrideIsTheLeastMultipleOfFour : Prop :=
  ∀ (s t : State) (w r : Int), s.fault = false → s.regValue .widthPx = some w → exec .dsize s = .next t →
    t.fault = false → t.regValue .rowStride = some r →
    4 ∣ r ∧ 3 * w ≤ r ∧ (∀ m : Int, 4 ∣ m → 3 * w ≤ m → r ≤ m) ∧ r - 3 * w = w % 4 ∧ (w = 0 → r = 0)

/-- 42_pixel_buffer.md R142: LOAD raises ShortRead (0x20) exactly when data_size > 0 and PIXEL_DATA_OFFSET + data_size >
FILE_LEN; extra bytes in the file after the raster are no error. That nothing is copied then is R142's own inference, from
60_exceptions.md R221. -/
def Obligations.LoadShortReadExactly : Prop :=
  ∀ (s : State) (w h off : Int), s.fault = false → s.regValue .widthPx = some w → s.regValue .heightPx = some h →
    s.regValue .pixelDataOffset = some off → 0 ≤ w →
    (exec .load s = .next (s.raise .ioShortRead) ↔
      0 < specDataSize w h ∧ (s.fileLen.toNat : Int) < off + specDataSize w h) ∧
    (exec .load s = .next (s.raise .ioShortRead) ↔ max 0 ((s.fileLen.toNat : Int) - off) < specDataSize w h) ∧
    (s.raise .ioShortRead).err = 0x20 ∧ (∀ j, (s.raise .ioShortRead).bufByte j = s.bufByte j)

/-- 42_pixel_buffer.md R143: LOAD copies data_size bytes from PIXEL_DATA_OFFSET, sets BUF_LEN and the three sizes, and
changes nothing else. That BUF_LEN is a multiple of 4 is R143's own inference (from R135), and `bufDropped` is the model's
own (log 4). -/
def Obligations.LoadCopiesTheRaster : Prop :=
  ∀ (s : State) (w h off : Int), s.fault = false → s.regValue .widthPx = some w → s.regValue .heightPx = some h →
    s.regValue .pixelDataOffset = some off → 0 ≤ w →
    (specDataSize w h = 0 ∨ off + specDataSize w h ≤ s.fileLen.toNat) →
    ∃ t, exec .load s = .next t ∧ t.fault = false ∧ t.sizeValid = true ∧
      t.regValue .bufLen = some (specDataSize w h) ∧
      (∀ i < t.bufLen.toNat, t.bufByte i = s.fileByte (off.toNat + i)) ∧
      t.regValue .rowStride = some (specStride w) ∧ t.regValue .heightAbs = some |h| ∧
      t.regValue .dataSize = some (specDataSize w h) ∧ 4 ∣ t.bufLen.toNat ∧
      t = { s with buf := t.buf, bufLen := t.bufLen, sizes := t.sizes, bufDropped := t.bufDropped } ∧
      (∀ sp a, sp ≠ .buf → t.byteAt sp a = s.byteAt sp a)

/-- 42_pixel_buffer.md R147, R148: STORE writes the header verbatim at 0 and the buffer at HDR_BYTES, whatever
PIXEL_DATA_OFFSET says, and changes neither. The invariant rules out lengths that no 64-bit OUT_LEN could hold. -/
def Obligations.StoreWritesHeaderThenBuffer : Prop :=
  ∀ s : State, s.Inv → s.fault = false → s.hdrValid = true →
    ∃ t, exec .store s = .next t ∧ t.fault = false ∧ t.outValid = true ∧
      t.regValue .outLen = some ((s.params.hdrBytes : Int) + s.bufLen.toNat) ∧
      (∀ i < s.params.hdrBytes, t.byteAt .out i = s.byteAt .hdrRaw i) ∧
      (∀ i < s.bufLen.toNat, t.byteAt .out (s.params.hdrBytes + i) = s.byteAt .buf i) ∧
      t = { s with out := t.out } ∧ (∀ sp a, sp ≠ .out → t.byteAt sp a = s.byteAt sp a)

/-! ## ENCODE -/

/-- 43_message_frame.md R163: TooLarge (0x30) exactly when PAYLOAD_LEN ≥ 256, whatever MSG holds. -/
def Obligations.EncodeTooLargeExactly : Prop :=
  ∀ s : State, s.fault = false →
    (exec .encode s = .next (s.raise .framingTooLarge) ↔ 256 ≤ s.payloadLen.toNat) ∧
    (s.raise .framingTooLarge).err = 0x30

/-- 43_message_frame.md R164: the frame is the length byte and the payload; nothing else changes. -/
def Obligations.EncodeBuildsTheFrame : Prop :=
  ∀ s : State, s.fault = false → s.payloadLen.toNat ≤ 255 →
    ∃ t, exec .encode s = .next t ∧ t.fault = false ∧ t.frameValid = true ∧
      t.regValue .frameLen = some (s.payloadLen.toNat : Int) ∧
      t.byteAt .frame 0 = some (BitVec.ofNat 8 s.payloadLen.toNat) ∧
      (∀ i < s.payloadLen.toNat, t.byteAt .frame (1 + i) = some (s.msgByte i)) ∧
      t.length .frame = 1 + s.payloadLen.toNat ∧
      t = { s with frame := t.frame } ∧ (∀ sp a, sp ≠ .frame → t.byteAt sp a = s.byteAt sp a) ∧
      (∀ i b u, act (.writeMem .msg i b) t = .next u → ∀ a, u.byteAt .frame a = t.byteAt .frame a)

/-- 43_message_frame.md section 3 (R167, an inference of the spec): the frame ENCODE builds from a payload is the frame
EXTRACT delivers for the same payload, in any two states. -/
def Obligations.EncodeAndExtractBuildTheSameFrame : Prop :=
  ∀ s t s' t' : State, s.fault = false → s'.fault = false → exec .encode s = .next t → exec .extract s' = .next t' →
    t.fault = false → t'.fault = false → t.regValue .frameLen = t'.regValue .frameLen →
    (∀ k < s.payloadLen.toNat, t'.byteAt .frame (1 + k) = some (s.msgByte k)) → t'.frame = t.frame

/-! ## EMBED -/

/-- 44_lsb_codec.md R178: Overflow (0x40) exactly when 8·(1 + L) > BUF_LEN, with no byte of BUF changed; and EMBED
never changes a byte at BUF_LEN or beyond. -/
def Obligations.EmbedOverflowExactly : Prop :=
  ∀ (s : State) (len : Int), s.fault = false → s.regValue .frameLen = some len →
    (exec .embed s = .next (s.raise .capacityOverflow) ↔ (s.bufLen.toNat : Int) < 8 * (1 + len)) ∧
    (s.raise .capacityOverflow).err = 0x40 ∧ (∀ j, (s.raise .capacityOverflow).bufByte j = s.bufByte j) ∧
    (s.raise .capacityOverflow).byteIndex = s.byteIndex ∧
    (∀ t, exec .embed s = .next t → ∀ j, s.bufLen.toNat ≤ j → t.bufByte j = s.bufByte j)

/-- 44_lsb_codec.md section 2 (R180 to R182): EMBED in closed form. `f k` is FRAME[k]. -/
def Obligations.EmbedClosedForm : Prop :=
  ∀ (s : State) (len : Nat) (f : Nat → Byte), s.fault = false → s.regValue .frameLen = some (len : Int) →
    (∀ k ≤ len, s.byteAt .frame k = some (f k)) → 8 * (1 + len) ≤ s.bufLen.toNat →
    ∃ t, exec .embed s = .next t ∧ t.fault = false ∧
      (∀ j < 8 * (1 + len), t.bufByte j = (s.bufByte j &&& 0xFE) ||| ((f (j / 8) >>> (j % 8)) &&& 1)) ∧
      (∀ j, 8 * (1 + len) ≤ j → t.bufByte j = s.bufByte j) ∧
      t.regValue .byteIndex = some (8 * (1 + (len : Int))) ∧
      t = { s with buf := t.buf, byteIndex := t.byteIndex } ∧ (∀ sp a, sp ≠ .buf → t.byteAt sp a = s.byteAt sp a)

/-- 44_lsb_codec.md section 2 (R179, R195 (c)) and 20_memory.md R68: whatever EMBED does, bits 7 to 1 of every carrier byte
stay, so a byte changes by at most 1. -/
def Obligations.EmbedTouchesOnlyBitZero : Prop :=
  ∀ s t : State, exec .embed s = .next t → ∀ j,
    (∀ i, 1 ≤ i → (t.bufByte j).getLsbD i = (s.bufByte j).getLsbD i) ∧
    (t.bufByte j).toNat / 2 = (s.bufByte j).toNat / 2 ∧
    (t.bufByte j).toNat ≤ (s.bufByte j).toNat + 1 ∧ (s.bufByte j).toNat ≤ (t.bufByte j).toNat + 1

/-- 20_memory.md R62, R63: bit i of frame byte k travels in bit 0 of carrier byte 8·k + i, in both directions. -/
def Obligations.FrameBitsTravelLeastSignificantFirst : Prop :=
  (∀ (s t : State) (k i : Nat) (b : Byte), s.fault = false → exec .embed s = .next t → t.fault = false →
    k < s.length .frame → i < 8 → s.byteAt .frame k = some b →
    (t.bufByte (8 * k + i)).getLsbD 0 = b.getLsbD i) ∧
  (∀ (s t : State) (k i : Nat) (b : Byte), s.fault = false → exec .extract s = .next t → t.fault = false →
    k < t.length .frame → i < 8 → t.byteAt .frame k = some b →
    b.getLsbD i = (s.bufByte (8 * k + i)).getLsbD 0)

/-! ## EXTRACT -/

/-- 44_lsb_codec.md R186: BufferTooSmall (0x31) exactly when BUF_LEN ≤ 7. -/
def Obligations.ExtractBufferTooSmallExactly : Prop :=
  ∀ s : State, s.fault = false →
    (exec .extract s = .next (s.raise .framingBufferTooSmall) ↔ s.bufLen.toNat ≤ 7) ∧
    (s.raise .framingBufferTooSmall).err = 0x31

/-- 44_lsb_codec.md R187, R188: with L the sum of the first eight low bits, Truncated (0x32) exactly when 8 + 8·L > BUF_LEN
in a buffer of at least 8 bytes; nothing is written then. -/
def Obligations.ExtractTruncatedExactly : Prop :=
  ∀ s : State, s.fault = false → 8 ≤ s.bufLen.toNat →
    (exec .extract s = .next (s.raise .framingTruncated) ↔
      s.bufLen.toNat < 8 + 8 * ∑ i ∈ Finset.range 8, (s.bufByte i &&& 1).toNat * 2 ^ i) ∧
    (s.raise .framingTruncated).err = 0x32 ∧ (s.raise .framingTruncated).frame = s.frame ∧
    (s.raise .framingTruncated).byteIndex = s.byteIndex

/-- 44_lsb_codec.md R187, R189, R190: the frame EXTRACT returns, byte by byte as sums of low bits; nothing else changes. -/
def Obligations.ExtractRebuildsTheFrame : Prop :=
  ∀ (s : State) (len : Nat), s.fault = false → 8 ≤ s.bufLen.toNat →
    len = ∑ i ∈ Finset.range 8, (s.bufByte i &&& 1).toNat * 2 ^ i → 8 + 8 * len ≤ s.bufLen.toNat →
    ∃ t, exec .extract s = .next t ∧ t.fault = false ∧ t.frameValid = true ∧
      t.regValue .frameLen = some (len : Int) ∧ t.length .frame = 1 + len ∧
      (∃ b, t.byteAt .frame 0 = some b ∧ b.toNat = len) ∧
      (∀ k < len, ∃ b, t.byteAt .frame (1 + k) = some b ∧
        b.toNat = ∑ i ∈ Finset.range 8, (s.bufByte (8 + 8 * k + i) &&& 1).toNat * 2 ^ i) ∧
      t.regValue .byteIndex = some (8 * (1 + (len : Int))) ∧
      t = { s with frame := t.frame, byteIndex := t.byteIndex } ∧
      (∀ sp a, sp ≠ .frame → t.byteAt sp a = s.byteAt sp a)

/-- 44_lsb_codec.md section 4 (R195 (d), (e), R191, inferences of the spec): EXTRACT's result depends only on BUF_LEN and on
bit 0 of the first 8·(1 + L) carrier bytes, whatever else two states differ in; and on every one of those bits. -/
def Obligations.ExtractDependsExactlyOnLowBits : Prop :=
  ∀ (s s' t t' : State) (len : Nat), s.fault = false → s'.fault = false → s'.bufLen = s.bufLen →
    len = ∑ i ∈ Finset.range 8, (s.bufByte i &&& 1).toNat * 2 ^ i →
    exec .extract s = .next t → exec .extract s' = .next t' →
    ((∀ j < s.bufLen.toNat, j < 8 * (1 + len) → (s'.bufByte j).getLsbD 0 = (s.bufByte j).getLsbD 0) →
      t'.err = t.err ∧ (t.fault = false → t'.frame = t.frame ∧ t'.byteIndex = t.byteIndex)) ∧
    (t.fault = false → (∃ j < 8 * (1 + len), (s'.bufByte j).getLsbD 0 ≠ (s.bufByte j).getLsbD 0) →
      t'.err = 0x32 ∨ (t'.fault = false ∧ t'.frame ≠ t.frame))

/-! ## The pair, and whole flows -/

/-- 44_lsb_codec.md R194: the round-trip contract. `t'` is any later state in which no carrier byte of the frame has been
written since the EMBED, `t` itself among them. -/
def Obligations.EmbedThenExtractGivesTheFrameBack : Prop :=
  ∀ (s : State) (len : Nat), s.fault = false → s.regValue .frameLen = some (len : Int) →
    8 * (1 + len) ≤ s.bufLen.toNat →
    ∃ t, exec .embed s = .next t ∧ t.fault = false ∧ t.bufLen = s.bufLen ∧
      ∀ t' : State, t'.fault = false → 8 * (1 + len) ≤ t'.bufLen.toNat →
        (∀ j < 8 * (1 + len), t'.bufByte j = t.bufByte j) →
        ∃ u, exec .extract t' = .next u ∧ u.fault = false ∧
          u.regValue .frameLen = some (len : Int) ∧ (∀ k ≤ len, u.byteAt .frame k = s.byteAt .frame k) ∧
          (s.Inv → u.frame = s.frame) ∧ u.regValue .byteIndex = some (8 * (1 + (len : Int)))

/-- 44_lsb_codec.md section 4 (R195 (a), (b), inferences of the spec): a second EMBED of the same frame changes nothing at
all, and EMBED after EXTRACT leaves every buffer byte as it was. -/
def Obligations.EmbedIsIdempotentAndUndoesNothing : Prop :=
  (∀ s t : State, s.Inv → s.fault = false → exec .embed s = .next t → t.fault = false → exec .embed t = .next t) ∧
  (∀ s t : State, s.fault = false → exec .extract s = .next t → t.fault = false →
    ∃ u, exec .embed t = .next u ∧ u.fault = false ∧ ∀ a, u.bufByte a = s.bufByte a)

/-- 44_lsb_codec.md R197 as 90_conflicts.md C2 settles it: exactly 8 + 8·L bytes take the frame; one byte less gives
Overflow on EMBED, and on EXTRACT of the embedded buffer whose BUF_LEN the host then lowers by one Truncated for L ≥ 1 and
BufferTooSmall for L = 0. -/
def Obligations.CapacityBoundary : Prop :=
  ∀ (s : State) (len : Nat), s.fault = false → s.regValue .frameLen = some (len : Int) →
    (s.bufLen.toNat = 8 + 8 * len - 1 → exec .embed s = .next (s.raise .capacityOverflow)) ∧
    (s.bufLen.toNat = 8 + 8 * len → s.bufLen.toNat ≤ s.params.bufCap →
      ∃ t u, exec .embed s = .next t ∧ t.fault = false ∧
        act (.writeReg Reg.bufLen.number (8 + 8 * len - 1)) t = .next u ∧
        exec .extract u = .next (u.raise (if len = 0 then .framingBufferTooSmall else .framingTruncated)))

/-- 30_encoding.md section 5 (R102, R103) and 43_message_frame.md section 3: HIDE then, in a new run on the file it
wrote, REVEAL. If HIDE ends with FAULT = 0 on a file whose raster starts right after the header, then REVEAL of its output
ends with FAULT = 0 and delivers exactly the payload HIDE was given. -/
def Obligations.RevealOfHideGivesThePayload : Prop :=
  ∀ s t s' : State, s.Inv → s.fault = false → s'.fault = false → s'.params = s.params →
    s.pending = issueAll Flow.hide.commands → s'.pending = issueAll Flow.reveal.commands →
    Sys2Proof.core.run 5 s = .next t → t.fault = false →
    t.regValue .pixelDataOffset = some (s.params.hdrBytes : Int) →
    t.regValue .outLen = some (s'.fileLen.toNat : Int) →
    (∀ a < s'.fileLen.toNat, t.byteAt .out a = some (s'.fileByte a)) →
    ∃ u, Sys2Proof.core.run 3 s' = .next u ∧ u.fault = false ∧
      u.regValue .frameLen = some (s.payloadLen.toNat : Int) ∧
      (∀ k < s.payloadLen.toNat, u.byteAt .frame (1 + k) = some (s.msgByte k))

/-! ## The host port -/

/-- 70_reset_and_hazards.md section 3 (R261 (a) to (e)) and log 6: a host action outside the host rules is refused, as R261
asks. -/
def Obligations.ActionsOutsideTheHostRulesStop : Prop :=
  (∀ (s : State) (a : HostAction), a.wf s.params = false → ∃ r, act a s = .refused r) ∧
  (∀ (s : State) (n : Byte) (r : Reg), Reg.ofNumber n = some r → r ≠ .cmd → s.regValue r = none →
    act (.readReg n) s = .refused (.guardedRegister r)) ∧
  (∀ (s : State) (sp : Space) (a : Nat), a < sp.size s.params → s.byteAt sp a = none →
    act (.readMem sp a) s = .refused (.guardedMemory sp))

/-- 70_reset_and_hazards.md section 3 (R258, R260, R261): an action inside the host rules, whose guard flag is 1 where it has
one, always gives a next state: no state exists in which the block cannot accept a step. -/
def Obligations.ActionsInsideTheHostRulesComplete : Prop :=
  ∀ (s : State) (a : HostAction), a.wf s.params = true →
    (∀ n r, a = .readReg n → Reg.ofNumber n = some r → s.regValue r ≠ none) →
    (∀ sp i, a = .readMem sp i → s.byteAt sp i ≠ none) → ∃ t, act a s = .next t

/-- 20_memory.md section 5 (R74): a byte the host writes at any index of FILE, BUF or MSG, below the current length or beyond
it, is the byte that index then holds, and no register and no other byte of any space changes; below the length the host
reads it back. -/
def Obligations.HostReadsTheLatestWrite : Prop :=
  ∀ (s : State) (sp : Space) (a : Nat) (b : Byte), sp.hostWritable = true → a < sp.size s.params →
    ∃ t, act (.writeMem sp a b) s = .next t ∧ t.byteAt sp a = some b ∧
      (∀ r, t.regValue r = s.regValue r) ∧
      (∀ sp' a', (sp' ≠ sp ∨ a' ≠ a) → t.byteAt sp' a' = s.byteAt sp' a') ∧
      (a < s.length sp → act (.readMem sp a) t = .next { t with replies := .byte sp a b :: t.replies })

/-- 10_state.md section 1 (R31 to R33, R48): what the host's writes of the three length registers do. Lowering BUF_LEN gives
up the bytes from the new length to the old one and no other. `bufDropped` is the model's own (log 4). -/
def Obligations.HostSetsTheLengths : Prop :=
  ∀ (s : State) (v : Nat),
    (v < 2 ^ 64 → v ≤ s.params.fileCap → ∃ t, act (.writeReg 0x02 v) s = .next t ∧ t.regValue .fileLen = some (v : Int) ∧
      t = { s with fileLen := t.fileLen }) ∧
    (v < 2 ^ 64 → v ≤ s.params.bufCap → ∃ t, act (.writeReg 0x03 v) s = .next t ∧ t.regValue .bufLen = some (v : Int) ∧
      t = { s with bufLen := t.bufLen, buf := t.buf, bufDropped := t.bufDropped } ∧
      (∀ a, a < v ∨ s.bufLen.toNat ≤ a → t.bufByte a = s.bufByte a)) ∧
    (v < 2 ^ 32 → ∃ t, act (.writeReg 0x04 v) s = .next t ∧ t.regValue .payloadLen = some (v : Int) ∧
      t = { s with payloadLen := t.payloadLen })

/-- 20_memory.md section 3 (R67), section 5 (R74) and 10_state.md section 4 (R45): in every state, with or without a fault, a
host read of a register or of an architectural byte answers what it holds and changes nothing but what the host has read. A
byte at or beyond the current length answers some byte, and a counter of the model's own moves (log 5). -/
def Obligations.HostReadsAnswerWhatIsHeld : Prop :=
  (∀ (s : State) (r : Reg) (v : Int), s.regValue r = some v →
    act (.readReg r.number) s = .next { s with replies := .reg r v :: s.replies }) ∧
  (∀ (s : State) (sp : Space) (a : Nat) (b : Byte), a < sp.size s.params → a < s.length sp → s.byteAt sp a = some b →
    act (.readMem sp a) s = .next { s with replies := .byte sp a b :: s.replies }) ∧
  (∀ (s : State) (sp : Space) (a : Nat), a < sp.size s.params → s.length sp ≤ a → s.byteAt sp a ≠ none →
    ∃ b, act (.readMem sp a) s = .next { s with replies := .byte sp a b :: s.replies, strays := s.strays + 1 })
end

