-- ==== Sys2Proof/Laws/Memory.lean ====
section
/-! SUPPORT. The laws of byte memories: read after write, and that every operation keeps the canonical form. -/

namespace Sys2Proof.Machine

/-! ### lookup -/

theorem Memory.lookup_write (m : Memory) (a b : Nat) (v : Byte) :
    (m.write a v).lookup b = if a = b then some v else m.lookup b := by
  induction m with
  | nil => simp [Memory.write, Memory.lookup]
  | cons c m ih =>
    obtain ⟨k, w⟩ := c
    by_cases h1 : a < k
    · simp [Memory.write, Memory.lookup, h1]
    · by_cases h2 : a = k
      · subst h2
        by_cases h3 : a = b <;> simp [Memory.write, Memory.lookup, h3]
      · by_cases h3 : k = b
        · subst h3
          simp [Memory.write, Memory.lookup, h1, h2]
        · simp [Memory.write, Memory.lookup, h1, h2, h3, ih]

@[simp] theorem Memory.lookup_write_same (m : Memory) (a : Nat) (v : Byte) : (m.write a v).lookup a = some v := by
  simp [Memory.lookup_write]

theorem Memory.lookup_write_ne (m : Memory) {a b : Nat} (v : Byte) (h : a ≠ b) :
    (m.write a v).lookup b = m.lookup b := by simp [Memory.lookup_write, h]

theorem Memory.lookup_filter (p : Nat → Bool) (m : Memory) (a : Nat) :
    Memory.lookup (m.filter (fun c => p c.1)) a = if p a then m.lookup a else none := by
  induction m with
  | nil => simp [Memory.lookup]
  | cons c m ih =>
    obtain ⟨k, w⟩ := c
    by_cases hk : p k <;> by_cases hka : k = a
    · subst hka; simp [Memory.lookup, hk]
    · simp [Memory.lookup, hk, hka, ih]
    · subst hka; simp [hk, ih]
    · simp [Memory.lookup, hk, hka, ih]

theorem Memory.lookup_dropRange (m : Memory) (lo hi a : Nat) :
    (m.dropRange lo hi).lookup a = if a < lo ∨ hi ≤ a then m.lookup a else none := by
  rw [Memory.dropRange, Memory.lookup_filter (fun k => decide (k < lo) || decide (hi ≤ k))]
  simp

theorem Memory.lookup_append (m n : Memory) (a : Nat) :
    Memory.lookup (m ++ n) a = (m.lookup a).or (n.lookup a) := by
  induction m with
  | nil => simp [Memory.lookup]
  | cons c m ih =>
    obtain ⟨k, w⟩ := c
    by_cases h : k = a <;> simp [Memory.lookup, h, ih]

theorem Memory.lookup_ofFn (n : Nat) (f : Nat → Byte) (a : Nat) :
    (Memory.ofFn n f).lookup a = if a < n then some (f a) else none := by
  induction n with
  | zero => simp [Memory.ofFn, Memory.lookup]
  | succ n ih =>
    have h : Memory.ofFn (n + 1) f = Memory.ofFn n f ++ [(n, f n)] := by simp [Memory.ofFn, List.range_succ]
    rw [h, Memory.lookup_append, ih]
    by_cases h1 : a < n
    · simp [h1, Nat.lt_succ_of_lt h1]
    · by_cases h2 : n = a
      · subst h2; simp [Memory.lookup]
      · have h3 : ¬ a < n + 1 := by omega
        simp [Memory.lookup, h1, h2, h3]

theorem Memory.lookup_isSome_of_covers {m : Memory} {n a : Nat} (h : m.covers n) (ha : a < n) :
    ∃ v, m.lookup a = some v := by
  have hmem : a ∈ m.map Prod.fst := by rw [h]; simpa using ha
  clear h ha
  induction m with
  | nil => simp at hmem
  | cons c m ih =>
    obtain ⟨k, w⟩ := c
    by_cases hk : k = a
    · exact ⟨w, by simp [Memory.lookup, hk]⟩
    · have : a ∈ List.map Prod.fst m := by
        rcases List.mem_cons.1 (by simpa using hmem : a ∈ k :: List.map Prod.fst m) with h | h
        · exact absurd h.symm hk
        · exact h
      obtain ⟨v, hv⟩ := ih this
      exact ⟨v, by simp [Memory.lookup, hk, hv]⟩

/-! ### read -/

theorem Memory.read_write (free : Nat → Byte) (m : Memory) (a b : Nat) (v : Byte) :
    (m.write a v).read free b = if a = b then v else m.read free b := by
  by_cases h : a = b <;> simp [Memory.read, Memory.lookup_write, h]

theorem Memory.read_ofFn_lt (free : Nat → Byte) {n a : Nat} (f : Nat → Byte) (h : a < n) :
    (Memory.ofFn n f).read free a = f a := by simp [Memory.read, Memory.lookup_ofFn, h]

theorem Memory.read_congr_lookup {free free' : Nat → Byte} {m m' : Memory} {a : Nat} {v : Byte}
    (h : m.lookup a = some v) (h' : m'.lookup a = m.lookup a) : m'.read free' a = m.read free a := by
  simp [Memory.read, h', h]

theorem Memory.read_eq_of_covers {m : Memory} {n a : Nat} (h : m.covers n) (ha : a < n) (free free' : Nat → Byte) :
    m.read free a = m.read free' a := by
  obtain ⟨v, hv⟩ := Memory.lookup_isSome_of_covers h ha
  simp [Memory.read, hv]

/-! ### covers -/

theorem Memory.covers_ofFn (n : Nat) (f : Nat → Byte) : (Memory.ofFn n f).covers n := by
  simp only [Memory.covers, Memory.ofFn, List.map_map]
  exact List.map_id' _

/-- A memory that lists exactly 0 to n - 1 is what its own reading gives. -/
theorem Memory.eq_ofFn_of_covers {m : Memory} {n : Nat} (h : m.covers n) (free : Nat → Byte) :
    m = Memory.ofFn n (fun a => m.read free a) := by
  have key : ∀ (k : Nat) (m : Memory), m.map Prod.fst = List.range' k m.length →
      m = (List.range' k m.length).map (fun a => (a, Memory.read free m a)) := by
    intro k m
    induction m generalizing k with
    | nil => simp
    | cons c m ih =>
      obtain ⟨j, w⟩ := c
      intro hm
      simp only [List.map_cons, List.length_cons, List.range'_succ, List.cons.injEq] at hm
      obtain ⟨rfl, hm⟩ := hm
      have htail := ih (j + 1) hm
      have hread : (List.range' (j + 1) m.length).map (fun a => (a, Memory.read free ((j, w) :: m) a)) =
          (List.range' (j + 1) m.length).map (fun a => (a, Memory.read free m a)) := by
        apply List.map_congr_left
        intro a ha
        have : j ≠ a := by have := List.mem_range'_1.1 ha; omega
        simp [Memory.read, Memory.lookup, this]
      simp only [List.length_cons, List.range'_succ, List.map_cons, hread, ← htail]
      simp [Memory.read, Memory.lookup]
  have hlen : m.length = n := by simpa using congrArg List.length h
  have := key 0 m (by rw [h, hlen, List.range_eq_range'])
  rw [hlen, ← List.range_eq_range'] at this
  exact this

/-- Two memories that list exactly 0 to n - 1 and read alike there are equal. -/
theorem Memory.ext_of_covers {m m' : Memory} {n : Nat} (h : m.covers n) (h' : m'.covers n) (free free' : Nat → Byte)
    (hr : ∀ a < n, m.read free a = m'.read free' a) : m = m' := by
  rw [Memory.eq_ofFn_of_covers h free, Memory.eq_ofFn_of_covers h' free']
  simp only [Memory.ofFn]
  apply List.map_congr_left
  intro a ha
  rw [hr a (List.mem_range.1 ha)]

/-! ### canonical form -/

theorem Memory.mem_write {m : Memory} {a : Nat} {v : Byte} {c : Host.Cell} (h : c ∈ m.write a v) :
    c = (a, v) ∨ c ∈ m := by
  induction m with
  | nil => simpa [Memory.write] using h
  | cons d m ih =>
    obtain ⟨k, w⟩ := d
    by_cases h1 : a < k
    · simpa [Memory.write, h1] using h
    · by_cases h2 : a = k
      · simp only [Memory.write, h2, lt_self_iff_false, if_true, if_false] at h
        rcases List.mem_cons.1 h with h | h
        · exact .inl (by rw [h, h2])
        · exact .inr (List.mem_cons_of_mem _ h)
      · simp only [Memory.write, h1, h2, if_false, List.mem_cons] at h
        rcases h with h | h
        · exact .inr (by simp [h])
        · rcases ih h with h | h
          · exact .inl h
          · exact .inr (List.mem_cons_of_mem _ h)

theorem Memory.wf_write {m : Memory} (h : m.wf) (a : Nat) (v : Byte) : (m.write a v).wf := by
  induction m with
  | nil => simp [Memory.write, Memory.wf]
  | cons d m ih =>
    obtain ⟨k, w⟩ := d
    have hcons := List.pairwise_cons.1 h
    by_cases h1 : a < k
    · simp only [Memory.write, h1, if_true]
      refine List.pairwise_cons.2 ⟨fun c hc => ?_, h⟩
      rcases List.mem_cons.1 hc with hc | hc
      · simpa [hc] using h1
      · exact lt_trans h1 (hcons.1 c hc)
    · by_cases h2 : a = k
      · subst h2
        simp only [Memory.write, lt_self_iff_false, if_false, if_true]
        exact List.pairwise_cons.2 ⟨hcons.1, hcons.2⟩
      · simp only [Memory.write, h1, h2, if_false]
        refine List.pairwise_cons.2 ⟨fun c hc => ?_, ih hcons.2⟩
        rcases Memory.mem_write hc with hc | hc
        · subst hc; show k < a; omega
        · exact hcons.1 c hc

theorem Memory.wf_ofFn (n : Nat) (f : Nat → Byte) : (Memory.ofFn n f).wf := by
  simp only [Memory.wf, Memory.ofFn, List.pairwise_map]
  exact List.pairwise_lt_range

theorem Memory.wf_filter {m : Memory} (h : m.wf) (p : Host.Cell → Bool) : Memory.wf (m.filter p) :=
  List.Pairwise.sublist List.filter_sublist h

theorem Memory.wf_dropRange {m : Memory} (h : m.wf) (lo hi : Nat) : (m.dropRange lo hi).wf := Memory.wf_filter h _

theorem Memory.mem_ofFn {n : Nat} {f : Nat → Byte} {c : Host.Cell} (h : c ∈ Memory.ofFn n f) : c.1 < n := by
  simp only [Memory.ofFn, List.mem_map, List.mem_range] at h
  obtain ⟨i, hi, rfl⟩ := h
  exact hi

theorem Memory.wf_of_covers {m : Memory} {n : Nat} (h : m.covers n) : m.wf := by
  have : (m.map Prod.fst).Pairwise (· < ·) := by rw [h]; exact List.pairwise_lt_range
  simpa [Memory.wf, List.pairwise_map] using this

/-- The canonical form is kept by every memory operation: a byte write, the building of a memory from its bytes, and the
forgetting of a run of bytes. -/
theorem Memory.operations_keep_wf (m : Memory) (h : m.wf) (a n lo hi : Nat) (v : Byte) (f : Nat → Byte) :
    (m.write a v).wf ∧ (Memory.ofFn n f).wf ∧ (m.dropRange lo hi).wf :=
  ⟨Memory.wf_write h a v, Memory.wf_ofFn n f, Memory.wf_dropRange h lo hi⟩

theorem Memory.within_write {m : Memory} {cap a : Nat} (h : m.within cap) (ha : a < cap) (v : Byte) :
    (m.write a v).within cap := by
  refine ⟨Memory.wf_write h.1 a v, fun c hc => ?_⟩
  rcases Memory.mem_write hc with hc | hc
  · simpa [hc] using ha
  · exact h.2 c hc

theorem Memory.within_dropRange {m : Memory} {cap : Nat} (h : m.within cap) (lo hi : Nat) :
    (m.dropRange lo hi).within cap :=
  ⟨Memory.wf_dropRange h.1 lo hi, fun c hc => h.2 c (List.mem_filter.1 hc).1⟩

theorem Memory.within_ofFn {cap n : Nat} (hn : n ≤ cap) (f : Nat → Byte) : (Memory.ofFn n f).within cap :=
  ⟨Memory.wf_ofFn n f, fun _ hc => lt_of_lt_of_le (Memory.mem_ofFn hc) hn⟩

/-- Writing what a listed index already holds changes nothing. -/
theorem Memory.write_lookup_self {m : Memory} (h : m.wf) {a : Nat} {v : Byte} (hv : m.lookup a = some v) :
    m.write a v = m := by
  induction m with
  | nil => simp [Memory.lookup] at hv
  | cons d m ih =>
    obtain ⟨k, w⟩ := d
    have hcons := List.pairwise_cons.1 h
    by_cases hk : k = a
    · subst hk
      have : w = v := by simpa [Memory.lookup] using hv
      simp [Memory.write, this]
    · have hl : Memory.lookup m a = some v := by simpa [Memory.lookup, hk] using hv
      have hlt : ¬ a < k := by
        intro hlt
        have hno : ∀ (m : Memory), (∀ c ∈ m, k < c.1) → m.lookup a = none := by
          intro m
          induction m with
          | nil => simp [Memory.lookup]
          | cons e m ihm =>
            obtain ⟨j, x⟩ := e
            intro hall
            have h1 : k < j := hall (j, x) (by simp)
            have h2 : j ≠ a := by omega
            simp only [Memory.lookup, h2, if_false]
            exact ihm (fun c hc => hall c (List.mem_cons_of_mem _ hc))
        rw [hno m hcons.1] at hl
        cases hl
      have hne : ¬ a = k := fun h => hk h.symm
      simp [Memory.write, hlt, hne, ih hcons.2 hl]

end Sys2Proof.Machine
end

