-- ==== Sys2Proof/Laws/Fields.lean ====
section
/-! SUPPORT. The laws of little-endian fields and of the reading of a state's bytes. -/

namespace Sys2Proof.Machine

theorem le16_lt (rd : Nat → Byte) (a : Nat) : le16 rd a < 2 ^ 16 := by
  have h0 := (rd a).isLt
  have h1 := (rd (a + 1)).isLt
  simp only [le16]; omega

theorem le32_lt (rd : Nat → Byte) (a : Nat) : le32 rd a < 2 ^ 32 := by
  have h0 := (rd a).isLt
  have h1 := (rd (a + 1)).isLt
  have h2 := (rd (a + 2)).isLt
  have h3 := (rd (a + 3)).isLt
  simp only [le32]; omega

theorem le16_congr {rd rd' : Nat → Byte} {a : Nat} (h : ∀ i < 2, rd (a + i) = rd' (a + i)) : le16 rd a = le16 rd' a := by
  have h0 := h 0 (by omega)
  have h1 := h 1 (by omega)
  simp only [Nat.add_zero] at h0
  simp [le16, h0, h1]

theorem le32_congr {rd rd' : Nat → Byte} {a : Nat} (h : ∀ i < 4, rd (a + i) = rd' (a + i)) : le32 rd a = le32 rd' a := by
  have h0 := h 0 (by omega)
  have h1 := h 1 (by omega)
  have h2 := h 2 (by omega)
  have h3 := h 3 (by omega)
  simp only [Nat.add_zero] at h0
  simp [le32, h0, h1, h2, h3]

/-- A 16-bit field has a value exactly when its two bytes are that value's. -/
theorem le16_eq_iff (rd : Nat → Byte) (a : Nat) (lo hi : Byte) :
    le16 rd a = lo.toNat + 256 * hi.toNat ↔ rd a = lo ∧ rd (a + 1) = hi := by
  have h0 := (rd a).isLt
  have h1 := (rd (a + 1)).isLt
  have h2 := lo.isLt
  have h3 := hi.isLt
  simp only [le16]
  constructor
  · intro h
    exact ⟨BitVec.eq_of_toNat_eq (by omega), BitVec.eq_of_toNat_eq (by omega)⟩
  · rintro ⟨e0, e1⟩
    rw [e0, e1]

theorem magicField_eq_iff (rd : Nat → Byte) : magicField rd = magicBM ↔ rd 0 = 0x42 ∧ rd 1 = 0x4D :=
  le16_eq_iff rd 0 0x42 0x4D

theorem bitsPerPixelField_eq_iff (rd : Nat → Byte) : bitsPerPixelField rd = bppRequired ↔ rd 28 = 0x18 ∧ rd 29 = 0x00 :=
  le16_eq_iff rd 28 0x18 0x00

theorem compressionField_eq_iff (rd : Nat → Byte) :
    compressionField rd = compressionRequired ↔ rd 30 = 0 ∧ rd 31 = 0 ∧ rd 32 = 0 ∧ rd 33 = 0 := by
  have hz : (0 : Byte).toNat = 0 := rfl
  simp only [compressionField, le32, compressionRequired, BitVec.toNat_eq, hz, Nat.reduceAdd]
  omega

theorem sext32_bounds {v : Nat} (h : v < 2 ^ 32) : -2 ^ 31 ≤ sext32 v ∧ sext32 v < 2 ^ 31 := by
  simp only [sext32]
  split <;> omega

theorem widthPxField_bounds (rd : Nat → Byte) : -2 ^ 31 ≤ widthPxField rd ∧ widthPxField rd < 2 ^ 31 :=
  sext32_bounds (le32_lt rd 18)

theorem heightPxField_bounds (rd : Nat → Byte) : -2 ^ 31 ≤ heightPxField rd ∧ heightPxField rd < 2 ^ 31 :=
  sext32_bounds (le32_lt rd 22)

/-- Two readings that agree below 38 give the same eight header fields (20_memory.md R69: the last field ends at 38). -/
theorem headerFields_congr {rd rd' : Nat → Byte} (h : ∀ a < 38, rd a = rd' a) :
    magicField rd = magicField rd' ∧ fileSizeField rd = fileSizeField rd' ∧
      pixelDataOffsetField rd = pixelDataOffsetField rd' ∧ widthPxField rd = widthPxField rd' ∧
      heightPxField rd = heightPxField rd' ∧ bitsPerPixelField rd = bitsPerPixelField rd' ∧
      compressionField rd = compressionField rd' ∧ imageSizeBytesField rd = imageSizeBytesField rd' := by
  refine ⟨le16_congr fun i hi => h _ (by omega), le32_congr fun i hi => h _ (by omega),
    le32_congr fun i hi => h _ (by omega), ?_, ?_, le16_congr fun i hi => h _ (by omega),
    le32_congr fun i hi => h _ (by omega), le32_congr fun i hi => h _ (by omega)⟩
  · simp only [widthPxField]; rw [le32_congr (fun i hi => h _ (by omega))]
  · simp only [heightPxField]; rw [le32_congr (fun i hi => h _ (by omega))]

/-! ### bytes of the state -/

/-- The byte of a space depends on its contents and its free values alone. -/
theorem State.byteOf_congr {s t : State} {sp : Space} (h : t.freeOf sp = s.freeOf sp) (m : Memory) (a : Nat) :
    t.byteOf sp m a = s.byteOf sp m a := by simp [State.byteOf, h]

theorem State.byteAt_congr {s t : State} {sp : Space} (hm : t.mem sp = s.mem sp) (hs : t.freeOf sp = s.freeOf sp) (a : Nat) :
    t.byteAt sp a = s.byteAt sp a := by simp [State.byteAt, State.byteOf, hm, hs]

theorem State.byteOf_ofFn {s : State} {sp : Space} {n a : Nat} (f : Nat → Byte) (h : a < n) :
    s.byteOf sp (Memory.ofFn n f) a = f a := Memory.read_ofFn_lt _ f h

/-- A byte that is listed reads the same whatever the free values are. -/
theorem State.byteOf_eq_of_covers {s t : State} {sp : Space} {m : Memory} {n a : Nat} (h : m.covers n) (ha : a < n) :
    t.byteOf sp m a = s.byteOf sp m a := Memory.read_eq_of_covers h ha _ _

end Sys2Proof.Machine
end

