-- ==== Sys2Proof/Laws/Codec.lean ====
section
/-! SUPPORT. The codec's loops in closed form (44_lsb_codec.md R180, R187, R189). -/

namespace Sys2Proof.Machine

/-! ### the bits of a frame -/

theorem frameBits_succ (f : Nat → Byte) (n : Nat) :
    frameBits f (n + 1) = frameBits f n ++ (List.range 8).map (fun i => (f n >>> i) &&& 1) := by
  simp [frameBits, List.range_succ]

theorem frameBits_length (f : Nat → Byte) (n : Nat) : (frameBits f n).length = 8 * n := by
  induction n with
  | zero => simp [frameBits]
  | succ n ih => rw [frameBits_succ, List.length_append, ih]; simp; omega

/-- Bit j of the frame is bit (j mod 8) of frame byte (j div 8). -/
theorem frameBits_getElem? (f : Nat → Byte) {n j : Nat} (h : j < 8 * n) :
    (frameBits f n)[j]? = some ((f (j / 8) >>> (j % 8)) &&& 1) := by
  induction n with
  | zero => omega
  | succ n ih =>
    rw [frameBits_succ]
    by_cases hj : j < 8 * n
    · rw [List.getElem?_append_left (by rw [frameBits_length]; exact hj), ih hj]
    · rw [List.getElem?_append_right (by rw [frameBits_length]; omega), frameBits_length]
      have h1 : j / 8 = n := by omega
      have h2 : j - 8 * n = j % 8 := by omega
      have h3 : j % 8 < 8 := by omega
      rw [h2, List.getElem?_map, List.getElem?_range h3, h1]
      rfl

/-! ### EMBED's loop -/

theorem embedLoop_cursor (free : Nat → Byte) (bs : List Byte) (c : Nat) (m : Memory) :
    (embedLoop free bs c m).2 = c + bs.length := by
  induction bs generalizing c m with
  | nil => rfl
  | cons b bs ih => simp only [embedLoop, ih, List.length_cons]; omega

/-- After the loop a carrier byte under the cursor's path has its bit 0 replaced, and every other byte is as before. -/
theorem embedLoop_read (free : Nat → Byte) (bs : List Byte) (c : Nat) (m : Memory) (j : Nat) :
    (embedLoop free bs c m).1.read free j =
      match (if c ≤ j then bs[j - c]? else none) with
      | some b => (m.read free j &&& 0xFE) ||| b
      | none => m.read free j := by
  induction bs generalizing c m with
  | nil => simp [embedLoop]
  | cons b bs ih =>
    simp only [embedLoop, ih, Memory.read_write]
    rcases Nat.lt_trichotomy j c with h | h | h
    · have h1 : ¬ c ≤ j := by omega
      have h2 : ¬ c + 1 ≤ j := by omega
      have h3 : ¬ c = j := by omega
      simp [h1, h2, h3]
    · subst h
      have h2 : ¬ j + 1 ≤ j := by omega
      simp [h2]
    · have h1 : c ≤ j := by omega
      have h2 : c + 1 ≤ j := by omega
      have h3 : ¬ c = j := by omega
      have h4 : j - c = (j - (c + 1)) + 1 := by omega
      simp [h1, h2, h3, h4]

theorem embedLoop_within {free : Nat → Byte} {bs : List Byte} {c cap : Nat} {m : Memory} (h : m.within cap)
    (hc : c + bs.length ≤ cap) : (embedLoop free bs c m).1.within cap := by
  induction bs generalizing c m with
  | nil => exact h
  | cons b bs ih =>
    simp only [List.length_cons] at hc
    exact ih (Memory.within_write h (by omega) _) (by omega)

/-- The loop lists every carrier byte it passes, so what it leaves there rests on no free value. -/
theorem embedLoop_lookup (free : Nat → Byte) (bs : List Byte) (c : Nat) (m : Memory) (j : Nat) :
    (embedLoop free bs c m).1.lookup j =
      if c ≤ j ∧ j < c + bs.length then some ((embedLoop free bs c m).1.read free j) else m.lookup j := by
  induction bs generalizing c m with
  | nil =>
    have : ¬ (c ≤ j ∧ j < c) := by omega
    simp [embedLoop, this]
  | cons b bs ih =>
    simp only [embedLoop]
    rw [ih]
    by_cases h1 : c + 1 ≤ j ∧ j < c + 1 + bs.length
    · have h2 : c ≤ j ∧ j < c + (b :: bs).length := by simp only [List.length_cons]; omega
      rw [if_pos h1, if_pos h2]
    · by_cases h3 : c = j
      · subst h3
        simp [embedLoop_read, Memory.read_write]
      · have h2 : ¬ (c ≤ j ∧ j < c + (b :: bs).length) := by simp only [List.length_cons]; omega
        rw [if_neg h1, if_neg h2, Memory.lookup_write_ne _ _ h3]

/-- A second pass of the loop over what the first one wrote changes nothing. -/
theorem embedLoop_fixed {free : Nat → Byte} {bs : List Byte} {c : Nat} {m : Memory} (h : m.wf)
    (hb : ∀ i b, bs[i]? = some b → ∃ v, m.lookup (c + i) = some v ∧ (v &&& 0xFE) ||| b = v) :
    (embedLoop free bs c m).1 = m := by
  induction bs generalizing c with
  | nil => rfl
  | cons b bs ih =>
    obtain ⟨v, hv, hvb⟩ := hb 0 b (by simp)
    have hread : m.read free c = v := by simpa [Memory.read] using congrArg (fun o => o.getD (free c)) hv
    have hw : m.write c ((m.read free c &&& 0xFE) ||| b) = m := by
      rw [hread, hvb]; exact Memory.write_lookup_self h hv
    simp only [embedLoop, hw]
    refine ih (fun i b' hi => ?_)
    obtain ⟨v', hv', h'⟩ := hb (i + 1) b' (by simpa using hi)
    exact ⟨v', by rw [show c + 1 + i = c + (i + 1) by omega]; exact hv', h'⟩

/-! ### EXTRACT's reading -/

/-- Bit i of the byte spelled from `base` is bit 0 of carrier byte base + i. -/
theorem lsbByte_getLsbD (rd : Nat → Byte) (base i : Nat) (h : i < 8) :
    (lsbByte rd base).getLsbD i = (rd (base + i)).getLsbD 0 := by
  have e : lsbByte rd base = ((((((((0 ||| ((rd (base + 0) &&& 1) <<< 0)) ||| ((rd (base + 1) &&& 1) <<< 1)) |||
      ((rd (base + 2) &&& 1) <<< 2)) ||| ((rd (base + 3) &&& 1) <<< 3)) ||| ((rd (base + 4) &&& 1) <<< 4)) |||
      ((rd (base + 5) &&& 1) <<< 5)) ||| ((rd (base + 6) &&& 1) <<< 6)) ||| ((rd (base + 7) &&& 1) <<< 7)) := rfl
  rw [e]
  interval_cases i <;> simp

/-- Only bit 0 of the eight carrier bytes matters (44_lsb_codec.md R195 (d)). -/
theorem lsbByte_congr {rd rd' : Nat → Byte} {base : Nat}
    (h : ∀ i < 8, (rd (base + i)).getLsbD 0 = (rd' (base + i)).getLsbD 0) : lsbByte rd base = lsbByte rd' base := by
  apply BitVec.eq_of_getLsbD_eq
  intro i hi
  rw [lsbByte_getLsbD _ _ _ hi, lsbByte_getLsbD _ _ _ hi, h i hi]

/-- The carrier byte after a bit was put into it: bits 7 to 1 kept, bit 0 the frame's. -/
theorem carrier_getLsbD (x f : Byte) (k i : Nat) :
    ((x &&& 0xFE) ||| ((f >>> k) &&& 1)).getLsbD i =
      if i = 0 then f.getLsbD k else x.getLsbD i := by
  by_cases h8 : i < 8
  · by_cases h0 : i = 0
    · subst h0
      simp
    · have hfe : (0xFE#8).getLsbD i = true := by interval_cases i <;> simp_all
      have h1 : (1#8).getLsbD i = false := by interval_cases i <;> simp_all
      simp [h0, h1, hfe]
  · have hge : 8 ≤ i := by omega
    have h0 : i ≠ 0 := by omega
    simp [BitVec.getLsbD_of_ge _ _ hge, h0]

/-- Putting a frame's bits under eight carrier bytes and reading them gives the frame's byte back. -/
theorem lsbByte_of_bits {rd : Nat → Byte} {base : Nat} {f : Byte}
    (h : ∀ i < 8, (rd (base + i)).getLsbD 0 = f.getLsbD i) : lsbByte rd base = f := by
  apply BitVec.eq_of_getLsbD_eq
  intro i hi
  rw [lsbByte_getLsbD _ _ _ hi, h i hi]

/-- A byte is the sum of its bits. -/
theorem byte_eq_sum (b : Byte) : b.toNat = ∑ i ∈ Finset.range 8, (b.getLsbD i).toNat * 2 ^ i := by
  revert b; decide +revert

/-- `(x & 1)` as a number is bit 0. -/
theorem and_one_toNat (b : Byte) : (b &&& 1).toNat = (b.getLsbD 0).toNat := by
  revert b; decide

/-- The reconstructed byte is Σ (BUF[base + i] & 1)·2^i (44_lsb_codec.md R187, R189). -/
theorem lsbByte_toNat (rd : Nat → Byte) (base : Nat) :
    (lsbByte rd base).toNat = ∑ i ∈ Finset.range 8, (rd (base + i) &&& 1).toNat * 2 ^ i := by
  rw [byte_eq_sum]
  apply Finset.sum_congr rfl
  intro i hi
  rw [lsbByte_getLsbD _ _ _ (Finset.mem_range.1 hi), and_one_toNat]

/-! ### the frame -/

theorem frameDecode_covers (len : Byte) (p : Nat → Byte) : (frameDecode len p).covers (1 + len.toNat) :=
  Memory.covers_ofFn _ _

theorem State.byteOf_frameDecode_zero (s : State) (len : Byte) (p : Nat → Byte) :
    s.byteOf .frame (frameDecode len p) 0 = len := by
  rw [frameDecode, State.byteOf_ofFn _ (by omega)]; simp

theorem State.byteOf_frameDecode_succ (s : State) {len : Byte} (p : Nat → Byte) {k : Nat} (h : k < len.toNat) :
    s.byteOf .frame (frameDecode len p) (1 + k) = p k := by
  rw [frameDecode, State.byteOf_ofFn _ (by omega)]; simp

theorem frameDecode_congr {len : Byte} {p q : Nat → Byte} (h : ∀ k < len.toNat, p k = q k) :
    frameDecode len p = frameDecode len q := by
  simp only [frameDecode, Memory.ofFn]
  apply List.map_congr_left
  intro i hi
  have hi := List.mem_range.1 hi
  by_cases h0 : i = 0
  · simp [h0]
  · simp [h0, h (i - 1) (by omega)]

end Sys2Proof.Machine
end

