-- ==== Sys2Proof/Laws/Sizes.lean ====
section
/-! SUPPORT. The size function is exact: its results fit their registers (42_pixel_buffer.md R134). -/

namespace Sys2Proof.Machine

/-- The stride is the least multiple of 4 that is at least 3·w, and the padding is w mod 4 (42_pixel_buffer.md R135). -/
theorem rowStride_facts (w : Nat) :
    4 ∣ rowStride w ∧ 3 * w ≤ rowStride w ∧ rowStride w < 3 * w + 4 ∧ rowStride w - 3 * w = w % 4 := by
  simp only [rowStride, bytesPerPixel, rowAlign]
  refine ⟨⟨_, Nat.mul_comm _ _⟩, ?_, ?_, ?_⟩ <;> omega

/-- The product's bound 3·2^62 (42_pixel_buffer.md R134). -/
theorem dataSize_le {w h : Nat} (hw : w < 2 ^ 31) (hh : h ≤ 2 ^ 31) : rowStride w * h ≤ 3 * 2 ^ 62 := by
  have h1 : rowStride w ≤ 3 * 2 ^ 31 := by
    have := rowStride_facts w
    omega
  calc rowStride w * h ≤ (3 * 2 ^ 31) * 2 ^ 31 := Nat.mul_le_mul h1 hh
    _ = 3 * 2 ^ 62 := by norm_num

theorem sizesOf_neg {w : Int} (hw : w < 0) (h : Int) : sizesOf w h = .error .specNegativeWidth := by
  simp [sizesOf, hw]

/-- What the size function answers for a width that is not negative: the exact numbers. -/
theorem sizesOf_exact {w h : Int} (hw0 : 0 ≤ w) (hw : w < 2 ^ 31) (hh0 : -2 ^ 31 ≤ h) (hh : h < 2 ^ 31) :
    ∃ z, sizesOf w h = .ok z ∧ z.rowStride.toNat = rowStride w.toNat ∧ z.heightAbs.toNat = h.natAbs ∧
      z.dataSize.toNat = rowStride w.toNat * h.natAbs := by
  have hn : ¬ w < 0 := by omega
  have hwn : w.toNat < 2 ^ 31 := by omega
  have hhn : h.natAbs ≤ 2 ^ 31 := by omega
  have hs := rowStride_facts w.toNat
  have hd := dataSize_le hwn hhn
  refine ⟨_, by rw [sizesOf, if_neg hn], ?_, ?_, ?_⟩
  · simp only [BitVec.toNat_ofNat]; exact Nat.mod_eq_of_lt (by omega)
  · simp only [BitVec.toNat_ofNat]; exact Nat.mod_eq_of_lt (by omega)
  · simp only [BitVec.toNat_ofNat]; exact Nat.mod_eq_of_lt (by omega)

/-- The sizes of a header: NegativeWidth, or the exact numbers of its two fields. -/
theorem State.headerSizes_cases (s : State) (h : Memory) :
    (widthPxField (s.byteOf .hdrRaw h) < 0 ∧ s.headerSizes h = .error .specNegativeWidth) ∨
      ∃ z, 0 ≤ widthPxField (s.byteOf .hdrRaw h) ∧ s.headerSizes h = .ok z ∧
        z.rowStride.toNat = rowStride (widthPxField (s.byteOf .hdrRaw h)).toNat ∧
        z.heightAbs.toNat = (heightPxField (s.byteOf .hdrRaw h)).natAbs ∧
        z.dataSize.toNat = z.rowStride.toNat * z.heightAbs.toNat := by
  have hb := widthPxField_bounds (s.byteOf .hdrRaw h)
  have hh := heightPxField_bounds (s.byteOf .hdrRaw h)
  by_cases hw : widthPxField (s.byteOf .hdrRaw h) < 0
  · exact .inl ⟨hw, sizesOf_neg hw _⟩
  · obtain ⟨z, hz, h1, h2, h3⟩ := sizesOf_exact (by omega) hb.2 hh.1 hh.2
    exact .inr ⟨z, by omega, hz, h1, h2, by rw [h1, h2, h3]⟩

/-- The source's formula for the stride is the model's (42_pixel_buffer.md R130, R133). -/
theorem specStride_eq {w : Int} (hw : 0 ≤ w) : specStride w = (rowStride w.toNat : Int) := by
  obtain ⟨n, rfl⟩ := Int.eq_ofNat_of_zero_le hw
  have h : ⌈(((n : Int) : ℚ) * 3 : ℚ) / 4⌉ = (((3 * n + 3) / 4 : Nat) : Int) := by
    rw [Int.ceil_eq_iff]
    have h1 : 3 * n ≤ (3 * n + 3) / 4 * 4 := by omega
    have h2 : (3 * n + 3) / 4 * 4 < 3 * n + 4 := by omega
    generalize (3 * n + 3) / 4 = q at *
    have h1' : (3 * n : ℚ) ≤ (q : Nat) * 4 := by exact_mod_cast h1
    have h2' : ((q : Nat) * 4 : ℚ) < 3 * n + 4 := by exact_mod_cast h2
    push_cast at *
    constructor <;> linarith
  unfold specStride
  rw [h, rowStride]
  simp

/-- The source's formula for the data size is the model's (42_pixel_buffer.md R130, R133). -/
theorem specDataSize_eq {w h : Int} (hw : 0 ≤ w) : specDataSize w h = ((rowStride w.toNat * h.natAbs : Nat) : Int) := by
  rw [specDataSize, specStride_eq hw, Int.abs_eq_natAbs]; push_cast; rfl

end Sys2Proof.Machine
end

