-- ==== Sys2Proof/Laws/State.lean ====
section
/-! SUPPORT. What each shared change of the state does to each field, one lemma per field and change, so that no later proof
unfolds a record update; and what fault entry leaves of the flags and bytes. -/

namespace Sys2Proof.Machine

/-! ### State.raise -/

@[simp] theorem State.raise_params (s : State) (e : ErrorKind) : (s.raise e).params = s.params := rfl
@[simp] theorem State.raise_fileLen (s : State) (e : ErrorKind) : (s.raise e).fileLen = s.fileLen := rfl
@[simp] theorem State.raise_bufLen (s : State) (e : ErrorKind) : (s.raise e).bufLen = s.bufLen := rfl
@[simp] theorem State.raise_payloadLen (s : State) (e : ErrorKind) : (s.raise e).payloadLen = s.payloadLen := rfl
@[simp] theorem State.raise_byteIndex (s : State) (e : ErrorKind) : (s.raise e).byteIndex = s.byteIndex := rfl
@[simp] theorem State.raise_error (s : State) (e : ErrorKind) : (s.raise e).error = some e := rfl
@[simp] theorem State.raise_file (s : State) (e : ErrorKind) : (s.raise e).file = s.file := rfl
@[simp] theorem State.raise_buf (s : State) (e : ErrorKind) : (s.raise e).buf = s.buf := rfl
@[simp] theorem State.raise_msg (s : State) (e : ErrorKind) : (s.raise e).msg = s.msg := rfl
@[simp] theorem State.raise_hdrRaw (s : State) (e : ErrorKind) : (s.raise e).hdrRaw = s.hdrRaw := rfl
@[simp] theorem State.raise_sizes (s : State) (e : ErrorKind) : (s.raise e).sizes = s.sizes := rfl
@[simp] theorem State.raise_frame (s : State) (e : ErrorKind) : (s.raise e).frame = s.frame := rfl
@[simp] theorem State.raise_out (s : State) (e : ErrorKind) : (s.raise e).out = s.out := rfl
@[simp] theorem State.raise_pending (s : State) (e : ErrorKind) : (s.raise e).pending = s.pending := rfl
@[simp] theorem State.raise_replies (s : State) (e : ErrorKind) : (s.raise e).replies = s.replies := rfl
@[simp] theorem State.raise_epoch (s : State) (e : ErrorKind) : (s.raise e).epoch = s.epoch := rfl
@[simp] theorem State.raise_bufDropped (s : State) (e : ErrorKind) : (s.raise e).bufDropped = s.bufDropped := rfl
@[simp] theorem State.raise_strays (s : State) (e : ErrorKind) : (s.raise e).strays = s.strays := rfl

/-! ### State.reply -/

@[simp] theorem State.reply_params (s : State) (r : Reply) : (s.reply r).params = s.params := rfl
@[simp] theorem State.reply_fileLen (s : State) (r : Reply) : (s.reply r).fileLen = s.fileLen := rfl
@[simp] theorem State.reply_bufLen (s : State) (r : Reply) : (s.reply r).bufLen = s.bufLen := rfl
@[simp] theorem State.reply_payloadLen (s : State) (r : Reply) : (s.reply r).payloadLen = s.payloadLen := rfl
@[simp] theorem State.reply_byteIndex (s : State) (r : Reply) : (s.reply r).byteIndex = s.byteIndex := rfl
@[simp] theorem State.reply_error (s : State) (r : Reply) : (s.reply r).error = s.error := rfl
@[simp] theorem State.reply_file (s : State) (r : Reply) : (s.reply r).file = s.file := rfl
@[simp] theorem State.reply_buf (s : State) (r : Reply) : (s.reply r).buf = s.buf := rfl
@[simp] theorem State.reply_msg (s : State) (r : Reply) : (s.reply r).msg = s.msg := rfl
@[simp] theorem State.reply_hdrRaw (s : State) (r : Reply) : (s.reply r).hdrRaw = s.hdrRaw := rfl
@[simp] theorem State.reply_sizes (s : State) (r : Reply) : (s.reply r).sizes = s.sizes := rfl
@[simp] theorem State.reply_frame (s : State) (r : Reply) : (s.reply r).frame = s.frame := rfl
@[simp] theorem State.reply_out (s : State) (r : Reply) : (s.reply r).out = s.out := rfl
@[simp] theorem State.reply_pending (s : State) (r : Reply) : (s.reply r).pending = s.pending := rfl
@[simp] theorem State.reply_replies (s : State) (r : Reply) : (s.reply r).replies = r :: s.replies := rfl
@[simp] theorem State.reply_epoch (s : State) (r : Reply) : (s.reply r).epoch = s.epoch := rfl
@[simp] theorem State.reply_bufDropped (s : State) (r : Reply) : (s.reply r).bufDropped = s.bufDropped := rfl
@[simp] theorem State.reply_strays (s : State) (r : Reply) : (s.reply r).strays = s.strays := rfl

/-! ### State.setBufLen -/

@[simp] theorem State.setBufLen_params (s : State) (n : Word64) : (s.setBufLen n).params = s.params := rfl
@[simp] theorem State.setBufLen_fileLen (s : State) (n : Word64) : (s.setBufLen n).fileLen = s.fileLen := rfl
@[simp] theorem State.setBufLen_bufLen (s : State) (n : Word64) : (s.setBufLen n).bufLen = n := rfl
@[simp] theorem State.setBufLen_payloadLen (s : State) (n : Word64) : (s.setBufLen n).payloadLen = s.payloadLen := rfl
@[simp] theorem State.setBufLen_byteIndex (s : State) (n : Word64) : (s.setBufLen n).byteIndex = s.byteIndex := rfl
@[simp] theorem State.setBufLen_error (s : State) (n : Word64) : (s.setBufLen n).error = s.error := rfl
@[simp] theorem State.setBufLen_file (s : State) (n : Word64) : (s.setBufLen n).file = s.file := rfl
@[simp] theorem State.setBufLen_buf (s : State) (n : Word64) : (s.setBufLen n).buf = s.buf.dropRange n.toNat s.bufLen.toNat := rfl
@[simp] theorem State.setBufLen_msg (s : State) (n : Word64) : (s.setBufLen n).msg = s.msg := rfl
@[simp] theorem State.setBufLen_hdrRaw (s : State) (n : Word64) : (s.setBufLen n).hdrRaw = s.hdrRaw := rfl
@[simp] theorem State.setBufLen_sizes (s : State) (n : Word64) : (s.setBufLen n).sizes = s.sizes := rfl
@[simp] theorem State.setBufLen_frame (s : State) (n : Word64) : (s.setBufLen n).frame = s.frame := rfl
@[simp] theorem State.setBufLen_out (s : State) (n : Word64) : (s.setBufLen n).out = s.out := rfl
@[simp] theorem State.setBufLen_pending (s : State) (n : Word64) : (s.setBufLen n).pending = s.pending := rfl
@[simp] theorem State.setBufLen_replies (s : State) (n : Word64) : (s.setBufLen n).replies = s.replies := rfl
@[simp] theorem State.setBufLen_epoch (s : State) (n : Word64) : (s.setBufLen n).epoch = s.epoch := rfl
@[simp] theorem State.setBufLen_bufDropped (s : State) (n : Word64) : (s.setBufLen n).bufDropped = if n < s.bufLen then (n.toNat, s.bufLen.toNat) :: s.bufDropped else s.bufDropped := rfl
@[simp] theorem State.setBufLen_strays (s : State) (n : Word64) : (s.setBufLen n).strays = s.strays := rfl

/-! ### State.replaceBuf -/

@[simp] theorem State.replaceBuf_params (s : State) (z : Sizes) (f : Nat → Byte) : (s.replaceBuf z f).params = s.params := rfl
@[simp] theorem State.replaceBuf_fileLen (s : State) (z : Sizes) (f : Nat → Byte) : (s.replaceBuf z f).fileLen = s.fileLen := rfl
@[simp] theorem State.replaceBuf_bufLen (s : State) (z : Sizes) (f : Nat → Byte) : (s.replaceBuf z f).bufLen = z.dataSize := rfl
@[simp] theorem State.replaceBuf_payloadLen (s : State) (z : Sizes) (f : Nat → Byte) : (s.replaceBuf z f).payloadLen = s.payloadLen := rfl
@[simp] theorem State.replaceBuf_byteIndex (s : State) (z : Sizes) (f : Nat → Byte) : (s.replaceBuf z f).byteIndex = s.byteIndex := rfl
@[simp] theorem State.replaceBuf_error (s : State) (z : Sizes) (f : Nat → Byte) : (s.replaceBuf z f).error = s.error := rfl
@[simp] theorem State.replaceBuf_file (s : State) (z : Sizes) (f : Nat → Byte) : (s.replaceBuf z f).file = s.file := rfl
@[simp] theorem State.replaceBuf_buf (s : State) (z : Sizes) (f : Nat → Byte) : (s.replaceBuf z f).buf = Memory.ofFn z.dataSize.toNat f := rfl
@[simp] theorem State.replaceBuf_msg (s : State) (z : Sizes) (f : Nat → Byte) : (s.replaceBuf z f).msg = s.msg := rfl
@[simp] theorem State.replaceBuf_hdrRaw (s : State) (z : Sizes) (f : Nat → Byte) : (s.replaceBuf z f).hdrRaw = s.hdrRaw := rfl
@[simp] theorem State.replaceBuf_sizes (s : State) (z : Sizes) (f : Nat → Byte) : (s.replaceBuf z f).sizes = some z := rfl
@[simp] theorem State.replaceBuf_frame (s : State) (z : Sizes) (f : Nat → Byte) : (s.replaceBuf z f).frame = s.frame := rfl
@[simp] theorem State.replaceBuf_out (s : State) (z : Sizes) (f : Nat → Byte) : (s.replaceBuf z f).out = s.out := rfl
@[simp] theorem State.replaceBuf_pending (s : State) (z : Sizes) (f : Nat → Byte) : (s.replaceBuf z f).pending = s.pending := rfl
@[simp] theorem State.replaceBuf_replies (s : State) (z : Sizes) (f : Nat → Byte) : (s.replaceBuf z f).replies = s.replies := rfl
@[simp] theorem State.replaceBuf_epoch (s : State) (z : Sizes) (f : Nat → Byte) : (s.replaceBuf z f).epoch = s.epoch := rfl
@[simp] theorem State.replaceBuf_bufDropped (s : State) (z : Sizes) (f : Nat → Byte) : (s.replaceBuf z f).bufDropped = (z.dataSize.toNat, s.params.bufCap) :: s.bufDropped := rfl
@[simp] theorem State.replaceBuf_strays (s : State) (z : Sizes) (f : Nat → Byte) : (s.replaceBuf z f).strays = s.strays := rfl

/-! ### State.resetEvent -/

@[simp] theorem State.resetEvent_params (s : State) : (s.resetEvent).params = s.params := rfl
@[simp] theorem State.resetEvent_fileLen (s : State) : (s.resetEvent).fileLen = 0 := rfl
@[simp] theorem State.resetEvent_bufLen (s : State) : (s.resetEvent).bufLen = 0 := rfl
@[simp] theorem State.resetEvent_payloadLen (s : State) : (s.resetEvent).payloadLen = 0 := rfl
@[simp] theorem State.resetEvent_byteIndex (s : State) : (s.resetEvent).byteIndex = 0 := rfl
@[simp] theorem State.resetEvent_error (s : State) : (s.resetEvent).error = none := rfl
@[simp] theorem State.resetEvent_file (s : State) : (s.resetEvent).file = [] := rfl
@[simp] theorem State.resetEvent_buf (s : State) : (s.resetEvent).buf = [] := rfl
@[simp] theorem State.resetEvent_msg (s : State) : (s.resetEvent).msg = [] := rfl
@[simp] theorem State.resetEvent_hdrRaw (s : State) : (s.resetEvent).hdrRaw = none := rfl
@[simp] theorem State.resetEvent_sizes (s : State) : (s.resetEvent).sizes = none := rfl
@[simp] theorem State.resetEvent_frame (s : State) : (s.resetEvent).frame = none := rfl
@[simp] theorem State.resetEvent_out (s : State) : (s.resetEvent).out = none := rfl
@[simp] theorem State.resetEvent_pending (s : State) : (s.resetEvent).pending = s.pending := rfl
@[simp] theorem State.resetEvent_replies (s : State) : (s.resetEvent).replies = s.replies := rfl
@[simp] theorem State.resetEvent_epoch (s : State) : (s.resetEvent).epoch = s.epoch + 1 := rfl
@[simp] theorem State.resetEvent_bufDropped (s : State) : (s.resetEvent).bufDropped = [] := rfl
@[simp] theorem State.resetEvent_strays (s : State) : (s.resetEvent).strays = s.strays := rfl

end Sys2Proof.Machine
end

