-- ==== Sys2Proof/Laws/Commands.lean ====
section
/-! SUPPORT. Said once: what a command can do. One inversion lemma for the frame every command runs in, and one for the
tests and writes of each command. -/

namespace Sys2Proof.Machine

theorem State.fault_eq_false {s : State} : s.fault = false ↔ s.error = none := by
  simp [State.fault]

@[simp] theorem State.fault_raise (s : State) (e : ErrorKind) : (s.raise e).fault = true := rfl

@[simp] theorem State.err_raise (s : State) (e : ErrorKind) : (s.raise e).err = e.code := rfl

theorem ErrorKind.code_ne_zero (e : ErrorKind) : e.code ≠ 0 := by cases e <;> decide

/-! ### the frame every command runs in -/

theorem command_ignored {s : State} (h : s.fault = true) (r : Except ErrorKind State) : command s r = .next s := by
  have : s.error.isSome = true := h
  simp [command, this]

theorem command_ok {s t : State} (h : s.fault = false) {r : Except ErrorKind State} (hr : r = .ok t) :
    command s r = .next t := by
  have : s.error.isSome = false := h
  simp [command, this, hr]

theorem command_error {s : State} {e : ErrorKind} (h : s.fault = false) {r : Except ErrorKind State}
    (hr : r = .error e) : command s r = .next (s.raise e) := by
  have : s.error.isSome = false := h
  simp [command, this, hr]

/-- A command always answers a next state. -/
theorem command_next (s : State) (r : Except ErrorKind State) : ∃ t, command s r = .next t := by
  cases h : s.fault
  · cases r with
    | ok t => exact ⟨t, command_ok h rfl⟩
    | error e => exact ⟨_, command_error h rfl⟩
  · exact ⟨s, command_ignored h r⟩

/-- Everything the frame can do: ignore, succeed, or enter a fault. -/
theorem command_cases {s t : State} {r : Except ErrorKind State} (h : command s r = .next t) :
    (s.fault = true ∧ t = s) ∨ (s.fault = false ∧ r = .ok t) ∨ (s.fault = false ∧ ∃ e, r = .error e ∧ t = s.raise e) := by
  cases hf : s.fault
  · cases r with
    | ok u =>
      rw [command_ok hf rfl] at h
      cases h
      exact .inr (.inl ⟨rfl, rfl⟩)
    | error e =>
      rw [command_error hf rfl] at h
      cases h
      exact .inr (.inr ⟨rfl, e, rfl, rfl⟩)
  · rw [command_ignored hf] at h
    cases h
    exact .inl ⟨rfl, rfl⟩

/-- A fault-free state goes to `s.raise e` exactly when the command's tests answer `e`, if success keeps FAULT at 0. -/
theorem command_eq_raise_iff {s : State} {e : ErrorKind} {r : Except ErrorKind State} (h : s.fault = false)
    (hr : ∀ t, r = .ok t → t.fault = false) : command s r = .next (s.raise e) ↔ r = .error e := by
  constructor
  · intro hc
    cases r with
    | ok t =>
      rw [command_ok h rfl] at hc
      injection hc with hc
      have := hr t rfl
      rw [hc] at this
      cases this
    | error e' =>
      rw [command_error h rfl] at hc
      injection hc with hc
      have := congrArg State.error hc
      simp only [State.raise_error, Option.some.injEq] at this
      rw [this]
  · exact command_error h

/-! ### the bodies -/

/-- PARSE: one of the four faults with the tests before it passed, or success. -/
theorem parseBody_cases (s : State) :
    (s.fileLen.toNat < s.params.hdrBytes ∧ parseBody s = .error .formatTruncated) ∨
    (s.params.hdrBytes ≤ s.fileLen.toNat ∧ magicField s.fileByte ≠ magicBM ∧
      parseBody s = .error .formatBadMagic) ∨
    (s.params.hdrBytes ≤ s.fileLen.toNat ∧ magicField s.fileByte = magicBM ∧
      bitsPerPixelField s.fileByte ≠ bppRequired ∧ parseBody s = .error .formatUnsupportedBitDepth) ∨
    (s.params.hdrBytes ≤ s.fileLen.toNat ∧ magicField s.fileByte = magicBM ∧
      bitsPerPixelField s.fileByte = bppRequired ∧ compressionField s.fileByte ≠ compressionRequired ∧
      parseBody s = .error .formatUnsupportedCompression) ∨
    (s.params.hdrBytes ≤ s.fileLen.toNat ∧ magicField s.fileByte = magicBM ∧
      bitsPerPixelField s.fileByte = bppRequired ∧ compressionField s.fileByte = compressionRequired ∧
      parseBody s = .ok { s with hdrRaw := some (Memory.ofFn s.params.hdrBytes s.fileByte), sizes := none }) := by
  unfold parseBody
  by_cases h1 : s.fileLen.toNat < s.params.hdrBytes
  · simp [h1]
  · by_cases h2 : magicField s.fileByte = magicBM
    · by_cases h3 : bitsPerPixelField s.fileByte = bppRequired
      · by_cases h4 : compressionField s.fileByte = compressionRequired <;>
          simp [h1, h2, h3, h4, Nat.le_of_not_lt h1]
      · simp [h1, h2, h3, Nat.le_of_not_lt h1]
    · simp [h1, h2, Nat.le_of_not_lt h1]

theorem parseBody_ok {s t : State} (h : parseBody s = .ok t) :
    s.params.hdrBytes ≤ s.fileLen.toNat ∧ magicField s.fileByte = magicBM ∧
      bitsPerPixelField s.fileByte = bppRequired ∧ compressionField s.fileByte = compressionRequired ∧
      t = { s with hdrRaw := some (Memory.ofFn s.params.hdrBytes s.fileByte), sizes := none } := by
  rcases parseBody_cases s with ⟨-, e⟩ | ⟨-, -, e⟩ | ⟨-, -, -, e⟩ | ⟨-, -, -, -, e⟩ | ⟨h1, h2, h3, h4, e⟩ <;>
    rw [e] at h
  · cases h
  · cases h
  · cases h
  · cases h
  · injection h with h
    exact ⟨h1, h2, h3, h4, h.symm⟩

/-- DSIZE: Sequence, NegativeWidth, or the sizes of the header. -/
theorem dsizeBody_cases (s : State) :
    (s.hdrRaw = none ∧ dsizeBody s = .error .specSequence) ∨
    (∃ h, s.hdrRaw = some h ∧ widthPxField (s.byteOf .hdrRaw h) < 0 ∧ dsizeBody s = .error .specNegativeWidth) ∨
    (∃ h z, s.hdrRaw = some h ∧ 0 ≤ widthPxField (s.byteOf .hdrRaw h) ∧ s.headerSizes h = .ok z ∧
      dsizeBody s = .ok { s with sizes := some z }) := by
  unfold dsizeBody
  cases hh : s.hdrRaw with
  | none => exact .inl ⟨rfl, rfl⟩
  | some h =>
    rcases s.headerSizes_cases h with ⟨hw, e⟩ | ⟨z, hw, e, -⟩
    · exact .inr (.inl ⟨h, rfl, hw, by simp only [e]⟩)
    · exact .inr (.inr ⟨h, z, rfl, hw, e, by simp only [e]⟩)

/-- LOAD: Sequence, NegativeWidth, ShortRead, or the buffer and the sizes. -/
theorem loadBody_cases (s : State) :
    (s.hdrRaw = none ∧ loadBody s = .error .specSequence) ∨
    (∃ h, s.hdrRaw = some h ∧ widthPxField (s.byteOf .hdrRaw h) < 0 ∧ loadBody s = .error .specNegativeWidth) ∨
    (∃ h z, s.hdrRaw = some h ∧ 0 ≤ widthPxField (s.byteOf .hdrRaw h) ∧ s.headerSizes h = .ok z ∧
      s.fileLen.toNat - pixelDataOffsetField (s.byteOf .hdrRaw h) < z.dataSize.toNat ∧
      loadBody s = .error .ioShortRead) ∨
    (∃ h z, s.hdrRaw = some h ∧ 0 ≤ widthPxField (s.byteOf .hdrRaw h) ∧ s.headerSizes h = .ok z ∧
      z.dataSize.toNat ≤ s.fileLen.toNat - pixelDataOffsetField (s.byteOf .hdrRaw h) ∧
      loadBody s = .ok (s.replaceBuf z (fun i => s.fileByte (pixelDataOffsetField (s.byteOf .hdrRaw h) + i)))) := by
  unfold loadBody
  cases hh : s.hdrRaw with
  | none => exact .inl ⟨rfl, rfl⟩
  | some h =>
    rcases s.headerSizes_cases h with ⟨hw, e⟩ | ⟨z, hw, e, -⟩
    · exact .inr (.inl ⟨h, rfl, hw, by simp only [e]⟩)
    · by_cases hs : s.fileLen.toNat - pixelDataOffsetField (s.byteOf .hdrRaw h) < z.dataSize.toNat
      · exact .inr (.inr (.inl ⟨h, z, rfl, hw, e, hs, by simp only [e, hs, if_true]⟩))
      · exact .inr (.inr (.inr ⟨h, z, rfl, hw, e, Nat.le_of_not_lt hs, by simp only [e, hs, if_false]⟩))

/-- STORE: Sequence, or the output file. -/
theorem storeBody_cases (s : State) :
    (s.hdrRaw = none ∧ storeBody s = .error .specSequence) ∨
    (∃ h, s.hdrRaw = some h ∧ storeBody s = .ok { s with
      out := some
        { len := BitVec.ofNat 64 (s.params.hdrBytes + s.bufLen.toNat)
          mem := Memory.ofFn (s.params.hdrBytes + s.bufLen.toNat) (fun i =>
            if i < s.params.hdrBytes then s.byteOf .hdrRaw h i else s.bufByte (i - s.params.hdrBytes)) } }) := by
  unfold storeBody
  cases hh : s.hdrRaw with
  | none => exact .inl ⟨rfl, rfl⟩
  | some h => exact .inr ⟨h, rfl, rfl⟩

/-- ENCODE: TooLarge, or the frame. -/
theorem encodeBody_cases (s : State) :
    (255 < s.payloadLen.toNat ∧ encodeBody s = .error .framingTooLarge) ∨
    (s.payloadLen.toNat ≤ 255 ∧
      encodeBody s = .ok { s with frame := some (frameDecode (BitVec.ofNat 8 s.payloadLen.toNat) s.msgByte) }) := by
  unfold encodeBody
  by_cases h : maxPayload < s.payloadLen.toNat
  · exact .inl ⟨h, by rw [if_pos h]⟩
  · exact .inr ⟨Nat.le_of_not_lt h, by rw [if_neg h]⟩

/-- The buffer after EMBED's loop. -/
def State.embedded (s : State) (f : Memory) : Memory :=
  (embedLoop (s.freeOf .buf) (frameBits (s.byteOf .frame f) (1 + (s.frameLenOf f).toNat)) 0 s.buf).1

/-- EMBED: Sequence, Overflow, or the buffer and the cursor. -/
theorem embedBody_cases (s : State) :
    (s.frame = none ∧ embedBody s = .error .specSequence) ∨
    (∃ f, s.frame = some f ∧ s.bufLen.toNat < requiredBits (s.frameLenOf f).toNat ∧
      embedBody s = .error .capacityOverflow) ∨
    (∃ f, s.frame = some f ∧ requiredBits (s.frameLenOf f).toNat ≤ s.bufLen.toNat ∧
      embedBody s = .ok { s with
        buf := s.embedded f, byteIndex := BitVec.ofNat 64 (requiredBits (s.frameLenOf f).toNat) }) := by
  unfold embedBody
  cases hf : s.frame with
  | none => exact .inl ⟨rfl, rfl⟩
  | some f =>
    by_cases h : s.bufLen.toNat < requiredBits (s.frameLenOf f).toNat
    · exact .inr (.inl ⟨f, rfl, h, by simp only [h, if_true]⟩)
    · refine .inr (.inr ⟨f, rfl, Nat.le_of_not_lt h, ?_⟩)
      simp only [h, if_false, embedLoop_cursor, frameBits_length, State.embedded, Nat.zero_add]
      rfl

/-- EMBED in closed form, byte by byte (44_lsb_codec.md R180). -/
theorem State.embedded_read (s : State) (f : Memory) (j : Nat) :
    s.byteOf .buf (s.embedded f) j =
      if j < requiredBits (s.frameLenOf f).toNat then
        (s.bufByte j &&& 0xFE) ||| ((s.byteOf .frame f (j / 8) >>> (j % 8)) &&& 1)
      else s.bufByte j := by
  have hread := embedLoop_read (s.freeOf .buf) (frameBits (s.byteOf .frame f) (1 + (s.frameLenOf f).toNat)) 0 s.buf j
  by_cases h : j < requiredBits (s.frameLenOf f).toNat
  · rw [if_pos (Nat.zero_le j), Nat.sub_zero, frameBits_getElem? _ h] at hread
    rw [if_pos h]
    exact hread
  · have hl : (frameBits (s.byteOf .frame f) (1 + (s.frameLenOf f).toNat))[j]? = none := by
      rw [List.getElem?_eq_none_iff, frameBits_length]
      exact Nat.le_of_not_lt h
    rw [if_pos (Nat.zero_le j), Nat.sub_zero, hl] at hread
    rw [if_neg h]
    exact hread

/-- EXTRACT: BufferTooSmall, Truncated, or the frame and the cursor. -/
theorem extractBody_cases (s : State) :
    (s.bufLen.toNat < 8 ∧ extractBody s = .error .framingBufferTooSmall) ∨
    (8 ≤ s.bufLen.toNat ∧ s.bufLen.toNat < requiredBits (lsbByte s.bufByte 0).toNat ∧
      extractBody s = .error .framingTruncated) ∨
    (8 ≤ s.bufLen.toNat ∧ requiredBits (lsbByte s.bufByte 0).toNat ≤ s.bufLen.toNat ∧
      extractBody s = .ok { s with
        frame := some (frameDecode (lsbByte s.bufByte 0) (fun k => lsbByte s.bufByte (8 + 8 * k)))
        byteIndex := BitVec.ofNat 64 (requiredBits (lsbByte s.bufByte 0).toNat) }) := by
  unfold extractBody
  by_cases h : s.bufLen.toNat < minExtractBytes
  · exact .inl ⟨h, by rw [if_pos h]⟩
  · by_cases h2 : s.bufLen.toNat < requiredBits (lsbByte s.bufByte 0).toNat
    · exact .inr (.inl ⟨Nat.le_of_not_lt h, h2, by simp only [h, h2, if_true, if_false]⟩)
    · exact .inr (.inr ⟨Nat.le_of_not_lt h, Nat.le_of_not_lt h2, by simp only [h, h2, if_false]⟩)

/-- The tests and writes of a command, by constructor. -/
def body : Instr → State → Except ErrorKind State
  | .parse => parseBody
  | .dsize => dsizeBody
  | .load => loadBody
  | .store => storeBody
  | .encode => encodeBody
  | .embed => embedBody
  | .extract => extractBody

theorem exec_eq_command (i : Instr) (s : State) : exec i s = command s (body i s) := by cases i <;> rfl

/-- What a command changes when it succeeds: only the state of its out column (30_encoding.md R93), and never FAULT. -/
theorem body_ok_outColumn {i : Instr} {s t : State} (h : body i s = .ok t) : t = outColumn i s t ∧ t.error = s.error := by
  cases i with
  | parse =>
    obtain ⟨-, -, -, -, rfl⟩ := parseBody_ok h
    exact ⟨rfl, rfl⟩
  | dsize =>
    change dsizeBody s = _ at h
    rcases dsizeBody_cases s with ⟨-, e⟩ | ⟨_, -, -, e⟩ | ⟨_, z, -, -, -, e⟩ <;> rw [e] at h <;> cases h
    exact ⟨rfl, rfl⟩
  | load =>
    change loadBody s = _ at h
    rcases loadBody_cases s with ⟨-, e⟩ | ⟨_, -, -, e⟩ | ⟨_, z, -, -, -, -, e⟩ | ⟨_, z, -, -, -, -, e⟩ <;> rw [e] at h <;>
      cases h
    exact ⟨rfl, rfl⟩
  | store =>
    change storeBody s = _ at h
    rcases storeBody_cases s with ⟨-, e⟩ | ⟨_, -, e⟩ <;> rw [e] at h <;> cases h
    exact ⟨rfl, rfl⟩
  | encode =>
    change encodeBody s = _ at h
    rcases encodeBody_cases s with ⟨-, e⟩ | ⟨-, e⟩ <;> rw [e] at h <;> cases h
    exact ⟨rfl, rfl⟩
  | embed =>
    change embedBody s = _ at h
    rcases embedBody_cases s with ⟨-, e⟩ | ⟨_, -, -, e⟩ | ⟨_, -, -, e⟩ <;> rw [e] at h <;> cases h
    exact ⟨rfl, rfl⟩
  | extract =>
    change extractBody s = _ at h
    rcases extractBody_cases s with ⟨-, e⟩ | ⟨-, -, e⟩ | ⟨-, -, e⟩ <;> rw [e] at h <;> cases h
    exact ⟨rfl, rfl⟩

theorem body_ok_fault {i : Instr} {s t : State} (h : body i s = .ok t) (hs : s.fault = false) : t.fault = false := by
  simpa [State.fault, (body_ok_outColumn h).2] using hs

/-- What a command that succeeds leaves of each flag (10_state.md R36). -/
theorem body_ok_flags {i : Instr} {s t : State} (h : body i s = .ok t) :
    t.fault = s.fault ∧ t.hdrValid = (s.hdrValid || decide (i = .parse)) ∧
      t.sizeValid = (!(decide (i = .parse)) && (s.sizeValid || decide (i = .dsize) || decide (i = .load))) ∧
      t.frameValid = (s.frameValid || decide (i = .encode) || decide (i = .extract)) ∧ t.outValid = (s.outValid || decide (i = .store)) := by
  cases i with
  | parse =>
    obtain ⟨-, -, -, -, rfl⟩ := parseBody_ok h
    refine ⟨rfl, ?_, rfl, ?_, ?_⟩ <;> simp [State.hdrValid, State.frameValid, State.outValid]
  | dsize =>
    change dsizeBody s = _ at h
    rcases dsizeBody_cases s with ⟨-, e⟩ | ⟨_, -, -, e⟩ | ⟨_, z, -, -, -, e⟩ <;> rw [e] at h <;> cases h
    refine ⟨rfl, ?_, ?_, ?_, ?_⟩ <;> simp [State.hdrValid, State.sizeValid, State.frameValid, State.outValid]
  | load =>
    change loadBody s = _ at h
    rcases loadBody_cases s with ⟨-, e⟩ | ⟨_, -, -, e⟩ | ⟨_, z, -, -, -, -, e⟩ | ⟨_, z, -, -, -, -, e⟩ <;> rw [e] at h <;>
      cases h
    refine ⟨rfl, ?_, ?_, ?_, ?_⟩ <;> simp [State.hdrValid, State.sizeValid, State.frameValid, State.outValid]
  | store =>
    change storeBody s = _ at h
    rcases storeBody_cases s with ⟨-, e⟩ | ⟨_, -, e⟩ <;> rw [e] at h <;> cases h
    refine ⟨rfl, ?_, ?_, ?_, ?_⟩ <;> simp [State.hdrValid, State.sizeValid, State.frameValid, State.outValid]
  | encode =>
    change encodeBody s = _ at h
    rcases encodeBody_cases s with ⟨-, e⟩ | ⟨-, e⟩ <;> rw [e] at h <;> cases h
    refine ⟨rfl, ?_, ?_, ?_, ?_⟩ <;> simp [State.hdrValid, State.sizeValid, State.frameValid, State.outValid]
  | embed =>
    change embedBody s = _ at h
    rcases embedBody_cases s with ⟨-, e⟩ | ⟨_, -, -, e⟩ | ⟨_, -, -, e⟩ <;> rw [e] at h <;> cases h
    refine ⟨rfl, ?_, ?_, ?_, ?_⟩ <;> simp [State.hdrValid, State.sizeValid, State.frameValid, State.outValid]
  | extract =>
    change extractBody s = _ at h
    rcases extractBody_cases s with ⟨-, e⟩ | ⟨-, -, e⟩ | ⟨-, -, e⟩ <;> rw [e] at h <;> cases h
    refine ⟨rfl, ?_, ?_, ?_, ?_⟩ <;> simp [State.hdrValid, State.sizeValid, State.frameValid, State.outValid]

/-- Everything a command can do. -/
theorem exec_cases {i : Instr} {s t : State} (h : exec i s = .next t) :
    (s.fault = true ∧ t = s) ∨ (s.fault = false ∧ body i s = .ok t) ∨
      (s.fault = false ∧ ∃ e, body i s = .error e ∧ t = s.raise e) :=
  command_cases (by rw [← exec_eq_command]; exact h)

/-- A command enters the fault `e` exactly when its tests answer `e`. -/
theorem exec_eq_raise_iff {i : Instr} {s : State} {e : ErrorKind} (h : s.fault = false) :
    exec i s = .next (s.raise e) ↔ body i s = .error e := by
  rw [exec_eq_command]
  exact command_eq_raise_iff h (fun t ht => body_ok_fault ht h)

/-- A command that leaves FAULT = 0 passed its tests. -/
theorem exec_nofault {i : Instr} {s t : State} (hs : s.fault = false) (h : exec i s = .next t) (ht : t.fault = false) :
    body i s = .ok t := by
  rcases exec_cases h with ⟨k, -⟩ | ⟨-, k⟩ | ⟨-, e, -, rfl⟩
  · simp [hs] at k
  · exact k
  · simp at ht

/-- A header register that holds a value is a field of HDR_RAW. -/
theorem State.headerReg_eq_some {s : State} {field : (Nat → Byte) → Int} {v : Int} (h : s.headerReg field = some v) :
    ∃ m, s.hdrRaw = some m ∧ field (s.byteOf .hdrRaw m) = v := by
  simpa [State.headerReg, Option.map_eq_some_iff] using h

/-- FRAME_LEN, when it holds a value, is the length byte of FRAME. -/
theorem State.frameLen_eq_some {s : State} {len : Int} (h : s.regValue .frameLen = some len) :
    ∃ f, s.frame = some f ∧ ((s.frameLenOf f).toNat : Int) = len := by
  simpa [State.regValue, Option.map_eq_some_iff] using h

/-- Any reading that agrees in bit 0 with the embedded buffer spells the frame's bytes (44_lsb_codec.md R194). -/
theorem State.lsbByte_embedded (s : State) (f : Memory) (rd : Nat → Byte) {k : Nat} (hk : k ≤ (s.frameLenOf f).toNat)
    (hrd : ∀ j < 8 * (1 + (s.frameLenOf f).toNat), j < 8 * (k + 1) →
      (rd j).getLsbD 0 = (s.byteOf .buf (s.embedded f) j).getLsbD 0) :
    lsbByte rd (8 * k) = s.byteOf .frame f k := by
  apply lsbByte_of_bits
  intro i hi
  rw [hrd _ (by omega) (by omega), s.embedded_read, if_pos (by unfold requiredBits; omega), carrier_getLsbD, if_pos rfl,
    show (8 * k + i) / 8 = k by omega, show (8 * k + i) % 8 = i by omega]

end Sys2Proof.Machine
end

