-- ==== Sys2Proof/Laws/HostPort.lean ====
section
/-! SUPPORT. Said once: what a host action and a step can do. -/

namespace Sys2Proof.Machine

/-! ### decoding -/

theorem decode_encode (i : Instr) : decode (encode i) = .ok i := by cases i <;> rfl

theorem encode_of_decode {b : Byte} {i : Instr} (h : decode b = .ok i) : encode i = b := by
  unfold decode at h
  split at h
  · rename_i r hr
    injection h with h
    subst h
    have hmem := List.mem_of_find?_eq_some hr
    have hsel : r.selects b = true := by simpa using List.find?_some hr
    have hall : ∀ r ∈ opcodeMap, ∀ b : Byte, r.selects b = true → encode r.instr = b := by decide
    exact hall r hmem b hsel
  · split at h <;> cases h

theorem Reg.ofNumber_number (r : Reg) : Reg.ofNumber r.number = some r := by cases r <;> rfl

theorem Reg.number_of_ofNumber {n : Byte} {r : Reg} (h : Reg.ofNumber n = some r) : r.number = n := by
  have := List.find?_some h
  simpa using this

/-! ### the issue of a command -/

theorem issue_ignored {s : State} (h : s.fault = true) (c : Byte) : issue c s = .next s := by simp [issue, h]

theorem issue_reserved {s : State} {c : Byte} {e : ReservedCode} (h : s.fault = false) (hd : decode c = .error e) :
    issue c s = .next (s.raise .specIllegalCommand) := by simp [issue, h, hd]

theorem issue_command {s : State} {c : Byte} {i : Instr} (h : s.fault = false) (hd : decode c = .ok i) :
    issue c s = exec i s := by simp [issue, h, hd]

/-- Everything the issue of a byte can do. -/
theorem issue_cases {c : Byte} {s t : State} (h : issue c s = .next t) :
    (s.fault = true ∧ t = s) ∨ (s.fault = false ∧ ∃ e, t = s.raise e) ∨
      (s.fault = false ∧ ∃ i, decode c = .ok i ∧ body i s = .ok t) := by
  cases hf : s.fault
  · cases hd : decode c with
    | error e =>
      rw [issue_reserved hf hd] at h
      cases h
      exact .inr (.inl ⟨rfl, _, rfl⟩)
    | ok i =>
      rw [issue_command hf hd] at h
      rcases exec_cases h with ⟨h1, -⟩ | ⟨-, h2⟩ | ⟨-, e, -, h3⟩
      · rw [hf] at h1; cases h1
      · exact .inr (.inr ⟨rfl, i, rfl, h2⟩)
      · exact .inr (.inl ⟨rfl, e, h3⟩)
  · rw [issue_ignored hf] at h
    cases h
    exact .inl ⟨rfl, rfl⟩

/-! ### host reads and writes -/

theorem hostReadReg_cases {n : Byte} {s t : State} (h : hostReadReg n s = .next t) :
    ∃ r v, Reg.ofNumber n = some r ∧ r ≠ .cmd ∧ s.regValue r = some v ∧ t = s.reply (.reg r v) := by
  unfold hostReadReg at h
  cases hr : Reg.ofNumber n with
  | none => simp [hr] at h
  | some r =>
    by_cases hc : r = .cmd
    · simp [hr, hc] at h
    · cases hv : s.regValue r with
      | none => simp [hr, hc, hv] at h
      | some v =>
        simp only [hr, hc, hv, if_false] at h
        injection h with h
        exact ⟨r, v, rfl, hc, hv, h.symm⟩

theorem hostWriteTo_cases {r : Reg} {v : Nat} {s t : State} (h : hostWriteTo r v s = .next t) :
    (r = .cmd ∧ v < 2 ^ 8 ∧ issue (BitVec.ofNat 8 v) s = .next t) ∨
    (r = .fileLen ∧ v < 2 ^ 64 ∧ v ≤ s.params.fileCap ∧ t = { s with fileLen := BitVec.ofNat 64 v }) ∨
    (r = .bufLen ∧ v < 2 ^ 64 ∧ v ≤ s.params.bufCap ∧ t = s.setBufLen (BitVec.ofNat 64 v)) ∨
    (r = .payloadLen ∧ v < 2 ^ 32 ∧ t = { s with payloadLen := BitVec.ofNat 32 v }) := by
  unfold hostWriteTo at h
  split at h
  · cases h
  · split at h
    · cases h
    · rename_i _ hw
      split at h
      · exact .inl ⟨rfl, by simpa [Reg.width] using hw, h⟩
      · split at h
        · cases h
        · rename_i hc
          injection h with h
          exact .inr (.inl ⟨rfl, by simpa [Reg.width] using hw, by omega, h.symm⟩)
      · split at h
        · cases h
        · rename_i hc
          injection h with h
          exact .inr (.inr (.inl ⟨rfl, by simpa [Reg.width] using hw, by omega, h.symm⟩))
      · injection h with h
        exact .inr (.inr (.inr ⟨rfl, by simpa [Reg.width] using hw, h.symm⟩))
      · cases h

theorem hostReadMem_cases {sp : Space} {a : Nat} {s t : State} (h : hostReadMem sp a s = .next t) :
    a < sp.size s.params ∧ ∃ b, s.byteAt sp a = some b ∧
      ((a < s.length sp ∧ t = s.reply (.byte sp a b)) ∨
        (s.length sp ≤ a ∧
          t = { s.reply (.byte sp a (Config.strayByte s.strays)) with strays := s.strays + 1 })) := by
  unfold hostReadMem at h
  split at h
  · cases h
  · rename_i hsz
    cases hb : s.byteAt sp a with
    | none => simp [hb] at h
    | some b =>
      simp only [hb] at h
      split at h
      · rename_i hl
        injection h with h
        exact ⟨by omega, b, rfl, .inl ⟨hl, h.symm⟩⟩
      · rename_i hl
        injection h with h
        exact ⟨by omega, b, rfl, .inr ⟨by omega, h.symm⟩⟩

theorem hostWriteMem_cases {sp : Space} {a : Nat} {b : Byte} {s t : State} (h : hostWriteMem sp a b s = .next t) :
    a < sp.size s.params ∧
      ((sp = .file ∧ t = { s with file := s.file.write a b }) ∨
        (sp = .buf ∧ t = { s with buf := s.buf.write a b }) ∨
        (sp = .msg ∧ t = { s with msg := s.msg.write a b })) := by
  unfold hostWriteMem at h
  split at h
  · cases h
  · rename_i hsz
    refine ⟨by omega, ?_⟩
    cases sp <;> simp only at h <;> cases h
    · exact .inl ⟨rfl, rfl⟩
    · exact .inr (.inl ⟨rfl, rfl⟩)
    · exact .inr (.inr ⟨rfl, rfl⟩)

/-- Everything a host action can do when it answers a next state. -/
theorem act_cases {a : HostAction} {s t : State} (h : act a s = .next t) :
    (∃ rs k, t = { s with replies := rs, strays := k } ∧ a ≠ .reset) ∨
    (∃ v, v < 2 ^ 64 ∧ v ≤ s.params.fileCap ∧ t = { s with fileLen := BitVec.ofNat 64 v } ∧ a ≠ .reset) ∨
    (∃ v, v < 2 ^ 64 ∧ v ≤ s.params.bufCap ∧ t = s.setBufLen (BitVec.ofNat 64 v) ∧ a ≠ .reset) ∨
    (∃ v : Word32, t = { s with payloadLen := v } ∧ a ≠ .reset) ∨
    (∃ i b, i < s.params.fileCap ∧ t = { s with file := s.file.write i b } ∧ a ≠ .reset) ∨
    (∃ i b, i < s.params.bufCap ∧ t = { s with buf := s.buf.write i b } ∧ a ≠ .reset) ∨
    (∃ i b, i < 255 ∧ t = { s with msg := s.msg.write i b } ∧ a ≠ .reset) ∨
    (a = .reset ∧ t = s.resetEvent) ∨
    (∃ c, issue c s = .next t ∧ (a = .issue c ∨ ∃ v, v < 256 ∧ a = .writeReg Reg.cmd.number v ∧ c = BitVec.ofNat 8 v)) := by
  cases a with
  | readReg n =>
    obtain ⟨r, v, -, -, -, rfl⟩ := hostReadReg_cases h
    exact .inl ⟨_, _, rfl, by simp⟩
  | writeReg n v =>
    change hostWriteReg n v s = _ at h
    unfold hostWriteReg at h
    cases hr : Reg.ofNumber n with
    | none => simp [hr] at h
    | some r =>
      simp only [hr] at h
      have hn := Reg.number_of_ofNumber hr
      rcases hostWriteTo_cases h with ⟨hc, hv, hi⟩ | ⟨-, hv, hc, rfl⟩ | ⟨-, hv, hc, rfl⟩ | ⟨-, -, rfl⟩
      · subst hc
        exact .inr (.inr (.inr (.inr (.inr (.inr (.inr (.inr
          ⟨_, hi, .inr ⟨v, by simpa using hv, by rw [hn], rfl⟩⟩)))))))
      · exact .inr (.inl ⟨v, hv, hc, rfl, by simp⟩)
      · exact .inr (.inr (.inl ⟨v, hv, hc, rfl, by simp⟩))
      · exact .inr (.inr (.inr (.inl ⟨_, rfl, by simp⟩)))
  | readMem sp i =>
    obtain ⟨-, b, -, ⟨-, rfl⟩ | ⟨-, rfl⟩⟩ := hostReadMem_cases h
    · exact .inl ⟨_, _, rfl, by simp⟩
    · exact .inl ⟨_, _, rfl, by simp⟩
  | writeMem sp i b =>
    obtain ⟨hsz, ⟨rfl, rfl⟩ | ⟨rfl, rfl⟩ | ⟨rfl, rfl⟩⟩ := hostWriteMem_cases h
    · exact .inr (.inr (.inr (.inr (.inl ⟨i, b, hsz, rfl, by simp⟩))))
    · exact .inr (.inr (.inr (.inr (.inr (.inl ⟨i, b, hsz, rfl, by simp⟩)))))
    · exact .inr (.inr (.inr (.inr (.inr (.inr (.inl ⟨i, b, hsz, rfl, by simp⟩))))))
  | reset =>
    injection h with h
    exact .inr (.inr (.inr (.inr (.inr (.inr (.inr (.inl ⟨rfl, h.symm⟩)))))))
  | issue c =>
    exact .inr (.inr (.inr (.inr (.inr (.inr (.inr (.inr ⟨c, h, .inl rfl⟩)))))))

/-- A write of a byte value to CMD issues the command with that code (10_state.md R42). -/
theorem act_writeCmd {v : Nat} (h : v < 256) (s : State) :
    act (.writeReg Reg.cmd.number v) s = issue (BitVec.ofNat 8 v) s := by
  have h' : ¬ 256 ≤ v := by omega
  simp [act, hostWriteReg, Reg.ofNumber_number, hostWriteTo, Reg.hostWritable, Reg.width, h']

/-- A write to FILE_LEN inside the host rules. -/
theorem act_writeFileLen {v : Nat} {s : State} (h : v < 2 ^ 64) (hc : v ≤ s.params.fileCap) :
    act (.writeReg Reg.fileLen.number v) s = .next { s with fileLen := BitVec.ofNat 64 v } := by
  have h' : ¬ 2 ^ 64 ≤ v := by omega
  have hc' : ¬ s.params.fileCap < v := by omega
  simp only [act, hostWriteReg, Reg.ofNumber_number, hostWriteTo, Reg.hostWritable, Reg.width, h', hc', Bool.not_true,
    Bool.false_eq_true, if_false]

/-- A write to BUF_LEN inside the host rules. -/
theorem act_writeBufLen {v : Nat} {s : State} (h : v < 2 ^ 64) (hc : v ≤ s.params.bufCap) :
    act (.writeReg Reg.bufLen.number v) s = .next (s.setBufLen (BitVec.ofNat 64 v)) := by
  have h' : ¬ 2 ^ 64 ≤ v := by omega
  have hc' : ¬ s.params.bufCap < v := by omega
  simp only [act, hostWriteReg, Reg.ofNumber_number, hostWriteTo, Reg.hostWritable, Reg.width, h', hc', Bool.not_true,
    Bool.false_eq_true, if_false]

/-- A write to PAYLOAD_LEN of any 32-bit value. -/
theorem act_writePayloadLen {v : Nat} (h : v < 2 ^ 32) (s : State) :
    act (.writeReg Reg.payloadLen.number v) s = .next { s with payloadLen := BitVec.ofNat 32 v } := by
  have h' : ¬ 2 ^ 32 ≤ v := by omega
  simp only [act, hostWriteReg, Reg.ofNumber_number, hostWriteTo, Reg.hostWritable, Reg.width, h', Bool.not_true,
    Bool.false_eq_true, if_false]

/-! ### the step -/

theorem step_idle {s : State} (h : s.pending = []) : step s = .next s := by simp [step, h]

theorem step_act {s : State} {a : HostAction} {rest : List HostAction} (h : s.pending = a :: rest) :
    step s = act a { s with pending := rest } := by simp [step, h]

theorem run_succ {s t : State} (h : step s = .next t) (k : Nat) :
    Sys2Proof.core.run (k + 1) s = Sys2Proof.core.run k t := by
  have : Sys2Proof.core.step s = .next t := h
  simp only [Host.Core.run, this]

theorem run_zero (s : State) : Sys2Proof.core.run 0 s = .next s := rfl

/-- Everything a step can do: stay, or perform the host's next action. -/
theorem step_cases {s t : State} (h : step s = .next t) :
    (s.pending = [] ∧ t = s) ∨ ∃ a rest, s.pending = a :: rest ∧ act a { s with pending := rest } = .next t := by
  cases hp : s.pending with
  | nil =>
    rw [step_idle hp] at h
    cases h
    exact .inl ⟨rfl, rfl⟩
  | cons a rest =>
    rw [step_act hp] at h
    exact .inr ⟨a, rest, rfl, h⟩

/-! ### runs of issued commands -/

/-- The issue of a byte always gives a next state (70_reset_and_hazards.md R260). -/
theorem issue_next (c : Byte) (s : State) : ∃ t, issue c s = .next t := by
  unfold issue
  split
  · exact ⟨_, rfl⟩
  · split
    · exact ⟨_, rfl⟩
    · rw [exec_eq_command]; exact command_next _ _

theorem step_issue {i : Instr} {is : List Instr} {s : State} (hf : s.fault = false) (hp : s.pending = issueAll (i :: is)) :
    step s = command { s with pending := issueAll is } (body i { s with pending := issueAll is }) := by
  have hfw : State.fault { s with pending := issueAll is } = false := hf
  rw [step_act (hp : s.pending = .issue (encode i) :: issueAll is), ← exec_eq_command]
  exact issue_command hfw (decode_encode i)

/-- A fault stays over any run of commands (60_exceptions.md R224). -/
theorem fault_run : ∀ (is : List Instr) (s t : State), s.fault = true → s.pending = issueAll is →
    Sys2Proof.core.run is.length s = .next t → t.fault = true := by
  intro is
  induction is with
  | nil => intro s t hf hp hr; rw [List.length_nil, run_zero] at hr; cases hr; exact hf
  | cons i is ih =>
    intro s t hf hp hr
    have hfw : State.fault { s with pending := issueAll is } = true := hf
    have hpw : State.pending { s with pending := issueAll is } = issueAll is := rfl
    have hs : step s = .next { s with pending := issueAll is } := by
      rw [step_act (hp : s.pending = .issue (encode i) :: issueAll is)]
      exact issue_ignored hfw _
    rw [List.length_cons, run_succ hs] at hr
    exact ih _ _ hfw hpw hr

/-- A run of commands that ends with FAULT = 0 had every command succeed. -/
theorem run_cons {i : Instr} {is : List Instr} {s t : State} (hf : s.fault = false) (hp : s.pending = issueAll (i :: is))
    (hr : Sys2Proof.core.run (is.length + 1) s = .next t) (ht : t.fault = false) :
    ∃ u, body i { s with pending := issueAll is } = .ok u ∧ Sys2Proof.core.run is.length u = .next t := by
  have hs := step_issue hf hp
  have hfw : State.fault { s with pending := issueAll is } = false := hf
  have hpw : State.pending { s with pending := issueAll is } = issueAll is := rfl
  generalize ({ s with pending := issueAll is } : State) = w at *
  cases hb : body i w with
  | ok u =>
    refine ⟨u, rfl, ?_⟩
    rw [command_ok hfw hb] at hs
    rw [run_succ hs] at hr; exact hr
  | error e =>
    rw [command_error hfw hb] at hs
    rw [run_succ hs] at hr
    have := fault_run is (w.raise e) t rfl hpw hr
    rw [ht] at this; cases this

theorem run_ok {i : Instr} {is : List Instr} {s u : State} (hf : s.fault = false) (hp : s.pending = issueAll (i :: is))
    (hb : body i { s with pending := issueAll is } = .ok u) :
    Sys2Proof.core.run (is.length + 1) s = Sys2Proof.core.run is.length u := by
  have hs := step_issue hf hp
  have hfw : State.fault { s with pending := issueAll is } = false := hf
  generalize ({ s with pending := issueAll is } : State) = w at *
  rw [command_ok hfw hb] at hs
  exact run_succ hs _

end Sys2Proof.Machine
end

