-- ==== Sys2Proof/Laws/PerInstr.lean ====
section
/-! SUPPORT. What holds of every command as syntax, one lemma per constructor of Instr. -/

namespace Sys2Proof.Laws.Encoding

/-- The command is well formed, its byte is one the opcode map lists, and decoding that byte gives the command back. -/
def Statement (i : Instr) : Prop := i.wf = true ∧ (∃ r ∈ opcodeMap, r.code = encode i) ∧ decode (encode i) = .ok i

theorem parse : Statement .parse := ⟨rfl, by decide, rfl⟩
theorem dsize : Statement .dsize := ⟨rfl, by decide, rfl⟩
theorem load : Statement .load := ⟨rfl, by decide, rfl⟩
theorem store : Statement .store := ⟨rfl, by decide, rfl⟩
theorem encode : Statement .encode := ⟨rfl, by decide, rfl⟩
theorem embed : Statement .embed := ⟨rfl, by decide, rfl⟩
theorem extract : Statement .extract := ⟨rfl, by decide, rfl⟩

end Sys2Proof.Laws.Encoding
end

