-- ==== Sys2Proof/Machine/Assembler.lean ====
section
/-! DEFINITION. The notation for command sequences of 30_encoding.md R97: "one mnemonic per line, the mnemonic in capitals ...,
no operands, a semicolon starting a comment that runs to the end of the line"; a line `host: ...` is a host action, "not
commands and have no encoding". -/

namespace Sys2Proof.Machine

/-- The mnemonics of 30_encoding.md R94, as characters. -/
def mnemonic : Instr → List Char
  | .parse => ['P', 'A', 'R', 'S', 'E']
  | .dsize => ['D', 'S', 'I', 'Z', 'E']
  | .load => ['L', 'O', 'A', 'D']
  | .store => ['S', 'T', 'O', 'R', 'E']
  | .encode => ['E', 'N', 'C', 'O', 'D', 'E']
  | .embed => ['E', 'M', 'B', 'E', 'D']
  | .extract => ['E', 'X', 'T', 'R', 'A', 'C', 'T']

/-- The command a mnemonic names. -/
def ofMnemonic (cs : List Char) : Option Instr :=
  [Instr.parse, .dsize, .load, .store, .encode, .embed, .extract].find? (fun i => mnemonic i == cs)

/-- A line without its comment and the blanks around it. R97's text makes a semicolon start a comment; its example
`PARSE; LOAD; EXTRACT` sets a sequence on one line with semicolons between. DESIGN CHOICE (log 12): the text is followed, so
that this example typed as one line is the command PARSE and a comment. -/
def trimLine (cs : List Char) : List Char :=
  let blank := fun c => c == ' ' || c == '\t' || c == '\r'
  (((cs.takeWhile (fun c => c != ';')).dropWhile blank).reverse.dropWhile blank).reverse

/-- The lines of a text. -/
def splitLines : List Char → List (List Char)
  | [] => [[]]
  | c :: cs =>
    if c == '\n' then [] :: splitLines cs
    else
      match splitLines cs with
      | [] => [[c]]
      | l :: ls => (c :: l) :: ls

/-- The commands of a text in the notation of R97; `none` when a line is neither empty, a host action nor a mnemonic. -/
def assembleLines : List (List Char) → Option (List Instr)
  | [] => some []
  | l :: ls =>
    let t := trimLine l
    if t.isEmpty || ['h', 'o', 's', 't', ':'].isPrefixOf t then assembleLines ls
    else
      match ofMnemonic t, assembleLines ls with
      | some i, some is => some (i :: is)
      | _, _ => none

/-- The command bytes of a text: "the sequence of its command bytes in order" (R97). -/
def assemble (text : List Char) : Option (List Byte) := (assembleLines (splitLines text)).map encodeSeq

end Sys2Proof.Machine
end

