-- ==== Sys2Proof/Tests/Slice0.lean ====
section
/-! SUPPORT. Tests. Every expected value is written out from spec/: the encoding of 30_encoding.md R94 and the vectors of
95_test_vectors.md (named S, V and P as there). Then, for every obligation with hypotheses, a theorem `witness_...` that shows
concrete states meeting them. -/

namespace Sys2Proof.Tests

open Sys2Proof Sys2Proof.Machine

/-! ## Small states -/

/-- HDR_BYTES = 54 as in 95_test_vectors.md, small capacities. -/
def params54 : Params := ⟨54, 4096, 4096, 8192⟩

def blank : State := State.resetOf params54

def cells (bs : List Byte) : Memory := Memory.ofFn bs.length (fun i => bs.getD i 0)

/-- The host has written FILE and FILE_LEN. -/
def withFile (bs : List Byte) (s : State) : State := { s with file := cells bs, fileLen := BitVec.ofNat 64 bs.length }

/-- The host has written BUF and BUF_LEN. -/
def withBuf (bs : List Byte) (s : State) : State := { s with buf := cells bs, bufLen := BitVec.ofNat 64 bs.length }

/-- The host has written MSG and PAYLOAD_LEN. -/
def withMsg (bs : List Byte) (s : State) : State := { s with msg := cells bs, payloadLen := BitVec.ofNat 32 bs.length }

/-- The state after an outcome; a stop keeps `s`. -/
def nextOr (s : State) : Host.Outcome State Fault Refusal → State
  | .next t => t
  | .fault _ => s
  | .refused _ => s

/-- The state after a command. -/
def after (i : Instr) (s : State) : State := nextOr s (exec i s)

/-- The state after a step. -/
def stepped (s : State) : State := nextOr s (step s)

/-- The state after a host action. -/
def acted (a : HostAction) (s : State) : State := nextOr s (act a s)

/-- The outcome is a next state. -/
def isNext : Host.Outcome State Fault Refusal → Bool
  | .next _ => true
  | .fault _ => false
  | .refused _ => false

theorem eq_nextOr {o : Host.Outcome State Fault Refusal} (s : State) (h : isNext o = true) : o = .next (nextOr s o) := by
  cases o with
  | next t => rfl
  | fault r => cases h
  | refused r => cases h

/-- The first `n` bytes of a space. -/
def bytes (s : State) (sp : Space) (n : Nat) : List Byte := (List.range n).filterMap (s.byteAt sp)

/-- `bs` with the bytes from index `a` on replaced by `p`. -/
def patch (a : Nat) (p bs : List Byte) : List Byte := bs.take a ++ p ++ bs.drop (a + p.length)

/-- HDR(3,2) of V1. -/
def hdr32 : List Byte :=
  [0x42, 0x4D, 0x4E, 0x00, 0x00, 0x00, 0x00, 0x00, 0x00, 0x00, 0x36, 0x00, 0x00, 0x00, 0x28, 0x00, 0x00, 0x00,
   0x03, 0x00, 0x00, 0x00, 0x02, 0x00, 0x00, 0x00, 0x01, 0x00, 0x18, 0x00, 0x00, 0x00, 0x00, 0x00, 0x18, 0x00,
   0x00, 0x00, 0x13, 0x0B, 0x00, 0x00, 0x13, 0x0B, 0x00, 0x00, 0x00, 0x00, 0x00, 0x00, 0x00, 0x00, 0x00, 0x00]

/-- RAS24 of V3. -/
def ras24 : List Byte :=
  [0x10, 0x21, 0x32, 0x43, 0x54, 0x65, 0x76, 0x87, 0x98, 0x00, 0x00, 0x00, 0xFF, 0xEE, 0xDD, 0xCC, 0xBB, 0xAA,
   0x99, 0x88, 0x77, 0x00, 0x00, 0x00]

/-- HDR(3,2) with another width and height. -/
def hdrSized (w h : List Byte) : List Byte := patch 22 h (patch 18 w hdr32)

/-- After PARSE of HDR(3,2) ++ RAS24 (V3 row 1's start). -/
def parsed : State := after .parse (withFile (hdr32 ++ ras24) blank)

/-- After PARSE of a header with the given width and height bytes. -/
def parsedSized (w h : List Byte) : State := after .parse (withFile (hdrSized w h) blank)

/-- The host wrote `buf` and issued ENCODE for `payload` (V6's start). -/
def framed (payload buf : List Byte) : State := after .encode (withMsg payload (withBuf buf blank))

/-- V7 row 5's buffer. -/
def carrier : List Byte :=
  [0x03, 0x02, 0x10, 0x20, 0x40, 0x80, 0x00, 0xFE, 0x01, 0x01, 0x01, 0x01, 0x00, 0x00, 0x00, 0x00, 0x00, 0x01,
   0x00, 0x01, 0x00, 0x01, 0x00, 0x01, 0xFF, 0xFE, 0xFF, 0xFE, 0xFF, 0xFE, 0xFF, 0xFE, 0x09, 0x09, 0x09, 0x09]

/-- V6 row 3's buffer. -/
def v63 : List Byte :=
  [0xFF, 0xFF, 0xFF, 0xFF, 0xFF, 0xFF, 0xFF, 0xFF, 0xA5, 0x00, 0x7E, 0x81, 0x10, 0x11, 0xFE, 0x01, 0x33, 0x33,
   0x33, 0x33]

/-- P1's embedded buffer. -/
def embedded24 : List Byte :=
  [0x11, 0x20, 0x32, 0x42, 0x54, 0x64, 0x76, 0x86, 0x98, 0x00, 0x00, 0x01, 0xFE, 0xEE, 0xDD, 0xCC, 0xBB, 0xAA,
   0x99, 0x88, 0x77, 0x00, 0x00, 0x00]

/-- The invariant as a decidable check. -/
abbrev invCheck (s : State) : Prop :=
  s.params.wf ∧ s.file.within s.params.fileCap ∧ s.buf.within s.params.bufCap ∧ s.msg.within 255 ∧
    s.fileLen.toNat ≤ s.params.fileCap ∧ s.bufLen.toNat ≤ s.params.bufCap ∧
    s.hdrRaw.all (fun h => decide (s.headerOk h)) = true ∧
    s.sizes.all (fun z => s.hdrRaw.any (fun h => decide (s.sizesOk h z))) = true ∧
    s.frame.all (fun f => decide (f.covers (1 + (s.frameLenOf f).toNat))) = true ∧
    s.out.all (fun o => decide (o.mem.covers o.len.toNat ∧ s.params.hdrBytes ≤ o.len.toNat ∧
      o.len.toNat ≤ s.params.outCap)) = true

theorem inv_of_check {s : State} (h : invCheck s) : s.Inv := by
  obtain ⟨h1, h2, h3, h4, h5, h6, h7, h8, h9, h10⟩ := h
  refine ⟨h1, h2, h3, h4, h5, h6, ?_, ?_, ?_, ?_⟩
  · intro m hm; rw [hm] at h7; exact of_decide_eq_true h7
  · intro z hz
    rw [hz] at h8
    cases hm : s.hdrRaw with
    | none => rw [hm] at h8; cases h8
    | some m => rw [hm] at h8; exact ⟨m, rfl, of_decide_eq_true h8⟩
  · intro f hf; rw [hf] at h9; exact of_decide_eq_true h9
  · intro o ho; rw [ho] at h10; exact of_decide_eq_true h10

set_option maxRecDepth 30000

/-! ## Well-formedness: each check refuses an ill-formed term -/

theorem test_params_wf : params54.wf ∧ Params.default.wf ∧ Params.wf ⟨38, 38, 38, 76⟩ := by decide
theorem test_params_hdrBytes_too_small : ¬ Params.wf ⟨37, 100, 100, 200⟩ := by decide
theorem test_params_fileCap_too_small : ¬ Params.wf ⟨54, 53, 100, 200⟩ := by decide
theorem test_params_bufCap_too_small : ¬ Params.wf ⟨54, 100, 99, 200⟩ := by decide
theorem test_params_outCap_too_small : ¬ Params.wf ⟨54, 100, 100, 153⟩ := by decide
theorem test_params_outCap_too_large : ¬ Params.wf ⟨54, 100, 100, 18446744073709551616⟩ := by decide
theorem test_every_command_wf : ∀ i ∈ [Instr.parse, .dsize, .load, .store, .encode, .embed, .extract], i.wf = true := by decide
theorem test_action_reserved_register : HostAction.wf params54 (.readReg 0x08) = false ∧
    HostAction.wf params54 (.writeReg 0x1B 0) = false := by decide
theorem test_action_cmd_read : HostAction.wf params54 (.readReg 0x00) = false := by decide
theorem test_action_read_only_register : HostAction.wf params54 (.writeReg 0x01 0) = false ∧
    HostAction.wf params54 (.writeReg 0x1A 0) = false := by decide
theorem test_action_value_too_wide : HostAction.wf params54 (.writeReg 0x00 256) = false ∧
    HostAction.wf params54 (.writeReg 0x04 4294967296) = false := by decide
theorem test_action_length_above_capacity : HostAction.wf params54 (.writeReg 0x02 4097) = false ∧
    HostAction.wf params54 (.writeReg 0x03 4097) = false ∧ HostAction.wf params54 (.writeReg 0x03 4096) = true := by decide
theorem test_action_no_such_index : HostAction.wf params54 (.readMem .msg 255) = false ∧
    HostAction.wf params54 (.writeMem .file 4096 0) = false ∧ HostAction.wf params54 (.readMem .msg 254) = true := by decide
theorem test_action_read_only_memory : HostAction.wf params54 (.writeMem .hdrRaw 0 0) = false ∧
    HostAction.wf params54 (.writeMem .frame 0 0) = false ∧ HostAction.wf params54 (.writeMem .out 0 0) = false := by decide

/-! ## Decoding: words written out bit by bit from 30_encoding.md R94 -/

theorem test_decode_parse : decode 0b00000001 = .ok .parse := by decide
theorem test_decode_dsize : decode 0b00000010 = .ok .dsize := by decide
theorem test_decode_load : decode 0b00000011 = .ok .load := by decide
theorem test_decode_store : decode 0b00000100 = .ok .store := by decide
theorem test_decode_encode : decode 0b00000101 = .ok .encode := by decide
theorem test_decode_embed : decode 0b00000110 = .ok .embed := by decide
theorem test_decode_extract : decode 0b00000111 = .ok .extract := by decide
theorem test_decode_zero : decode 0x00 = .error .zero := by decide
theorem test_decode_reserved : decode 0x08 = .error (.unassigned 0x08) ∧ decode 0xFF = .error (.unassigned 0xFF) ∧
    decode 0x81 = .error (.unassigned 0x81) := by decide
theorem test_decodeTableWord : decodeTableWord 8 6 = some .embed ∧ decodeTableWord 8 0 = none ∧
    decodeTableWord 8 0x101 = some .parse := by decide
theorem test_opcode_rows_do_not_overlap : opcodeMap.Pairwise (fun r q => ∀ b : Byte, ¬ (r.selects b = true ∧ q.selects b = true)) := by
  decide
theorem test_flow_encodings : encodeSeq Flow.showhdr.commands = [0x01] ∧ encodeSeq Flow.dump.commands = [0x01, 0x03] ∧
    encodeSeq Flow.gray.commands = [0x01, 0x03, 0x04] ∧ encodeSeq Flow.hide.commands = [0x01, 0x03, 0x05, 0x06, 0x04] ∧
    encodeSeq Flow.reveal.commands = [0x01, 0x03, 0x07] := by decide
theorem test_assemble : assemble ['P', 'A', 'R', 'S', 'E', ' ', ';', 'x', '\n', 'h', 'o', 's', 't', ':', ' ', 'y', '\n',
    'L', 'O', 'A', 'D', '\n', 'E', 'X', 'T', 'R', 'A', 'C', 'T'] = some [0x01, 0x03, 0x07] := by decide

/-! ## The commands, at most two vectors each -/

/-- V1 row 1. -/
theorem test_parse_fields : parsed.status = 0x0002 ∧
    [Reg.magic, .fileSize, .pixelDataOffset, .widthPx, .heightPx, .bitsPerPixel, .compression, .imageSizeBytes].map
      parsed.regValue = [some 0x4D42, some 78, some 54, some 3, some 2, some 24, some 0, some 24] ∧
    bytes parsed .hdrRaw 54 = hdr32 := by decide
/-- V1 rows 5, 6, 8, 10 and 14. -/
theorem test_parse_faults :
    (after .parse (withFile (patch 0 [0x41] (hdr32.take 53)) blank)).status = 0x1001 ∧
    (after .parse (withFile (patch 0 [0x4D, 0x42] hdr32) blank)).status = 0x1101 ∧
    (after .parse (withFile (patch 28 [0x18, 0x01] hdr32) blank)).status = 0x1201 ∧
    (after .parse (withFile (patch 30 [0x00, 0x00, 0x00, 0x01] hdr32) blank)).status = 0x1301 ∧
    (after .parse (withFile (patch 18 [0xFF, 0xFF, 0xFF, 0xFF] hdr32) blank)).regValue .widthPx = some (-1) := by decide
/-- V2: width 5 and height −3; the first stride that exceeds 32 bits. -/
theorem test_dsize_sizes :
    [Reg.rowStride, .heightAbs, .dataSize].map
      (after .dsize (parsedSized [0x05, 0x00, 0x00, 0x00] [0xFD, 0xFF, 0xFF, 0xFF])).regValue =
      [some 16, some 3, some 48] ∧
    (after .dsize (parsedSized [0x55, 0x55, 0x55, 0x55] [0x01, 0x00, 0x00, 0x00])).regValue .rowStride =
      some 4294967296 := by decide
/-- V2: the largest DATA_SIZE; width −1. -/
theorem test_dsize_extremes :
    (after .dsize (parsedSized [0xFF, 0xFF, 0xFF, 0x7F] [0x00, 0x00, 0x00, 0x80])).regValue .dataSize =
      some 0xC000000000000000 ∧
    (after .dsize (parsedSized [0xFF, 0xFF, 0xFF, 0xFF] [0x01, 0x00, 0x00, 0x00])).status = 0xE203 := by decide
/-- V3 row 1. -/
theorem test_load_raster : (after .load parsed).status = 0x0006 ∧ bytes (after .load parsed) .buf 24 = ras24 ∧
    (after .load parsed).regValue .bufLen = some 24 := by decide
/-- V3 rows 3 and 7. -/
theorem test_load_short_read :
    (after .load (after .parse (withFile (hdr32 ++ ras24.take 23) blank))).status = 0x2003 ∧
    (after .load (after .parse (withFile (patch 10 [0xFF, 0xFF, 0xFF, 0xFF]
      (hdrSized [0x00, 0x00, 0x00, 0x00] [0x00, 0x00, 0x00, 0x00])) blank))).status = 0x0006 := by decide
/-- V4 row 1: OUT equals the input file. -/
theorem test_store_copies : bytes (after .store (after .load parsed)) .out 78 = hdr32 ++ ras24 ∧
    (after .store (after .load parsed)).status = 0x0016 := by decide
/-- V4 row 3. -/
theorem test_store_any_length : (after .store (withBuf [0x01, 0x02, 0x03] parsed)).regValue .outLen = some 57 ∧
    (after .store (withBuf [0x01, 0x02, 0x03] parsed)).status = 0x0012 := by decide
/-- V5 row 3. -/
theorem test_encode_frame : bytes (framed [0x48, 0x69] []) .frame 3 = [0x02, 0x48, 0x69] ∧
    (framed [0x48, 0x69] []).status = 0x0008 := by decide
/-- V5 rows 6 and 7. -/
theorem test_encode_too_large : (after .encode (withBuf [] { blank with payloadLen := 256 })).status = 0x3001 ∧
    (after .encode { blank with payloadLen := 4294967295 }).status = 0x3001 := by decide
/-- V6 row 3. -/
theorem test_embed_row3 :
    bytes (after .embed (framed [0xB2] v63)) .buf 20 =
      [0xFF, 0xFE, 0xFE, 0xFE, 0xFE, 0xFE, 0xFE, 0xFE, 0xA4, 0x01, 0x7E, 0x80, 0x11, 0x11, 0xFE, 0x01, 0x33, 0x33, 0x33, 0x33] ∧
    (after .embed (framed [0xB2] v63)).byteIndex = 16 := by decide
/-- V6 rows 5 and 8. -/
theorem test_embed_overflow_and_residue :
    (after .embed (framed [] (List.replicate 7 0xFF))).status = 0x4009 ∧
    bytes (after .embed (framed [] ((List.replicate 24 (0x00 : Byte)).set 0 1 |>.set 11 1 |>.set 14 1))) .buf 24 =
      ((List.replicate 24 (0x00 : Byte)).set 11 1).set 14 1 := by decide
/-- V7 row 5. -/
theorem test_extract_row5 : bytes (after .extract (withBuf carrier blank)) .frame 2 = [0x01, 0x0F] ∧
    (after .extract (withBuf carrier blank)).byteIndex = 16 := by decide
/-- V7 rows 7, 8 and 13. -/
theorem test_extract_faults : (after .extract (withBuf (carrier.take 15) blank)).status = 0x3201 ∧
    (after .extract (withBuf (carrier.take 7) blank)).status = 0x3101 ∧
    (after .extract (withBuf ras24 blank)).status = 0x3201 := by decide
/-- P6: every command right after reset. -/
theorem test_every_command_after_reset :
    [Instr.parse, .dsize, .load, .store, .encode, .embed, .extract].map (fun i => (after i blank).status) =
      [0x1001, 0xE101, 0xE101, 0xE101, 0x0008, 0xE101, 0x3101] := by decide
/-- P6 from the model's own reset state, each command the first step after it. -/
theorem test_first_step_after_reset :
    [1, 2, 3, 4, 5, 6, 7].map (fun w => (stepped (State.reset.withFetchWord 8 w)).status) =
      [0x1001, 0xE101, 0xE101, 0xE101, 0x0008, 0xE101, 0x3101] := by decide
/-- V8 rows 1, 4 and 7. -/
theorem test_issue_reserved : (acted (.writeReg 0x00 0) blank).status = 0xE001 ∧
    (acted (.issue 0x2A) parsed).status = 0xE003 ∧
    (acted (.issue 0x00) (after .parse (withFile (patch 0 [0x41] hdr32) blank))).status = 0x1101 := by decide
/-- V8 row 9 and 10_state.md R52: reset clears the fault. -/
theorem test_reset_clears : (acted .reset (after .encode { blank with payloadLen := 256 })).status = 0x0000 := by decide
/-! ## Witnesses: states that meet the hypotheses of the obligations -/

theorem witness_DecodeAndEncodeAgreeOnSequences : Instr.parse.wf = true ∧
    decodeSeq [0x01, 0x03, 0x07] = .ok [.parse, .load, .extract] := by decide

/-- The codes 0x00, 0x08 and 0xFF, with FAULT 0 and 1. -/
theorem witness_ReservedCodesRaiseIllegalCommand : (∀ c ∈ ([0x00, 0x08, 0xFF] : List Byte), c = 0x00 ∨ 0x08 ≤ c.toNat) ∧
    blank.fault = false ∧ (after .dsize blank).fault = true := by decide

theorem witness_StepRunsTheDecodedCommand_issue :
    (blank.withFetchWord 8 0x05).pending = .issue 0x05 :: [] ∧ (blank.withFetchWord 8 0x05).fault = false ∧
      decode 0x05 = .ok .encode := by decide
theorem witness_StepRunsTheDecodedCommand_write :
    ({ blank with pending := [.writeReg 0x00 255] } : State).pending = .writeReg 0x00 255 :: [] ∧ 255 < 256 ∧
      (0xFF : Byte) = BitVec.ofNat 8 255 ∧ decode 0xFF = .error (.unassigned 0xFF) := by decide
theorem witness_StepRunsTheDecodedCommand_fault :
    ((after .dsize blank).withFetchWord 8 0x05).fault = true ∧
      ((after .dsize blank).withFetchWord 8 0x05).pending = .issue 0x05 :: [] := by decide

theorem witness_FetchedWordRunsNextAndIdleBlockStays : blank.fault = false ∧ decodeTableWord 8 7 = some .extract ∧
    0x101 % 256 = 0x01 % 256 ∧ blank.pending = [] := by decide

theorem witness_FaultEntryChangesOnlyFaultAndErr : blank.fault = false ∧ (after .embed blank).fault = true := by decide
theorem witness_FaultEntryChangesOnlyFaultAndErr_next : exec .embed blank = .next (after .embed blank) := rfl

/-- Each code of each command is reached from a state without a fault. -/
theorem witness_EachCommandRaisesOnlyItsOwnCodes :
    ∀ p ∈ ([(.parse, blank, 0x10), (.parse, withFile (patch 0 [0x41] hdr32) blank, 0x11),
      (.parse, withFile (patch 28 [0x20] hdr32) blank, 0x12), (.parse, withFile (patch 30 [0x01] hdr32) blank, 0x13),
      (.dsize, blank, 0xE1), (.dsize, parsedSized [0xFF, 0xFF, 0xFF, 0xFF] [0x01, 0x00, 0x00, 0x00], 0xE2),
      (.load, blank, 0xE1), (.load, parsedSized [0xFF, 0xFF, 0xFF, 0xFF] [0x01, 0x00, 0x00, 0x00], 0xE2),
      (.load, after .parse (withFile hdr32 blank), 0x20), (.store, blank, 0xE1),
      (.encode, { blank with payloadLen := 256 }, 0x30), (.embed, blank, 0xE1), (.embed, framed [] [], 0x40),
      (.extract, blank, 0x31), (.extract, withBuf ras24 blank, 0x32)] : List (Instr × State × Byte)),
      p.2.1.fault = false ∧ (after p.1 p.2.1).fault = true ∧ (after p.1 p.2.1).err = p.2.2 := by decide

theorem witness_MissingStageRaisesSequence : blank.fault = false ∧ blank.hdrValid = false ∧ blank.frameValid = false := by
  decide
theorem witness_MissingStageRaisesSequence_next : exec .parse blank = .next (after .parse blank) ∧
    exec .encode blank = .next (after .encode blank) ∧ exec .extract blank = .next (after .extract blank) := ⟨rfl, rfl, rfl⟩

/-- A faulted state with two writes to CMD to come, a register and a byte that read, and each kind of host action. -/
theorem witness_FaultIsSticky :
    let s := { after .dsize (withBuf [0x2A] blank) with pending := [.issue 0x05, .writeReg 0x00 0] }
    s.fault = true ∧ s.pending = [.issue 0x05, .writeReg 0x00 0] ++ [] ∧ 0 < 256 ∧ Reg.ofNumber 0x01 = some .status ∧
      s.regValue .status = some 0xE101 ∧ 0 < s.length .buf ∧ 0 < Space.buf.size s.params ∧ s.byteAt .buf 0 = some 0x2A ∧
      (∀ a ∈ [HostAction.issue 0x05, .writeReg 0x02 5, .writeReg 0x03 4096, .writeReg 0x04 4294967295, .writeMem .buf 0 1],
        a.wf s.params = true ∧ a ≠ .reset) := by decide

/-- One step per row of 10_state.md R36's table. -/
theorem witness_FlagsChangeOnlyAsTheTableSays :
    (let s := blank.withFetchWord 8 0x00;
      s.fault = false ∧ (stepped s).fault = true) ∧
    (let s := { after .dsize blank with pending := [.reset] };
      s.fault = true ∧ (stepped s).fault = false) ∧
    (let s := (withFile hdr32 blank).withFetchWord 8 0x01;
      s.hdrValid = false ∧ (stepped s).hdrValid = true) ∧
    (let s := parsed.withFetchWord 8 0x02;
      s.sizeValid = false ∧ (stepped s).sizeValid = true) ∧
    (let s := parsed.withFetchWord 8 0x03;
      s.sizeValid = false ∧ (stepped s).sizeValid = true) ∧
    (let s := (after .dsize parsed).withFetchWord 8 0x01;
      s.sizeValid = true ∧ (stepped s).sizeValid = false) ∧
    (let s := blank.withFetchWord 8 0x05;
      s.frameValid = false ∧ (stepped s).frameValid = true) ∧
    (let s := (withBuf carrier blank).withFetchWord 8 0x07;
      s.frameValid = false ∧ (stepped s).frameValid = true) ∧
    (let s := parsed.withFetchWord 8 0x04;
      s.outValid = false ∧ (stepped s).outValid = true) ∧
    (let s := { after .dsize (after .store (after .encode parsed)) with pending := [.reset] };
      (s.hdrValid = true ∧ (stepped s).hdrValid = false) ∧ (s.sizeValid = true ∧ (stepped s).sizeValid = false) ∧
        (s.frameValid = true ∧ (stepped s).frameValid = false) ∧ (s.outValid = true ∧ (stepped s).outValid = false)) := by
  decide

theorem witness_ResetClearsTheBlock : ({ parsed with pending := [.reset] } : State).pending = .reset :: [] := rfl

theorem witness_CommandsRightAfterReset : Params.wf params54 ∧ Params.wf ⟨38, 38, 38, 76⟩ := by decide

/-- A state with every flag set meets the invariant, and so does one after a step from it. -/
theorem witness_EveryStepKeepsTheInvariant :
    State.Inv ((after .store (after .embed (after .encode (after .load (withMsg [0x48] parsed))))).withFetchWord 8 0x07) :=
  inv_of_check (by decide)
theorem witness_EveryStepKeepsTheInvariant_next : step (blank.withFetchWord 8 0x05) =
    .next (stepped (blank.withFetchWord 8 0x05)) := rfl

/-- An EMBED that succeeds with L = 1 and one carrier byte beyond the frame, and a command that faults. -/
theorem witness_CommandsWriteOnlyTheirOutColumn :
    (let s := framed [0x48] (List.replicate 17 0x00);
      outMask .embed s 15 = 0x01 ∧ outMask .embed s 16 = 0x00 ∧ (after .embed s).fault = false) ∧
    (after .dsize blank).fault = true := by decide
theorem witness_CommandsWriteOnlyTheirOutColumn_next :
    exec .embed (framed [0x48] (List.replicate 17 0x00)) = .next (after .embed (framed [0x48] (List.replicate 17 0x00))) ∧
      exec .dsize blank = .next (after .dsize blank) := ⟨rfl, rfl⟩

/-- For each of the four faults a file that meets its clause, and one that meets none. -/
theorem witness_ParseFaultsInListedOrder :
    blank.fault = false ∧ ¬ 54 ≤ blank.fileLen.toNat ∧
    (withFile (patch 0 [0x41] hdr32) blank).fileByte 0 ≠ 0x42 ∧
    (withFile (patch 29 [0x01] hdr32) blank).fileByte 29 ≠ 0x00 ∧
    (withFile (patch 33 [0x01] hdr32) blank).fileByte 33 ≠ 0x00 ∧
    54 ≤ (withFile hdr32 blank).fileLen.toNat := by decide

/-- HDR_BYTES = FILE_LEN = 54, and HDR_BYTES = FILE_LEN = 38. -/
theorem witness_ParseMakesTheHeaderAvailable :
    ∀ s ∈ [withFile hdr32 blank, withFile (hdr32.take 38) (State.resetOf ⟨38, 38, 38, 76⟩)],
      s.fault = false ∧ 38 ≤ s.params.hdrBytes ∧ s.params.hdrBytes ≤ s.fileLen.toNat ∧ s.fileByte 0 = 0x42 ∧
        s.fileByte 1 = 0x4D ∧ s.fileByte 28 = 0x18 ∧ s.fileByte 29 = 0x00 ∧
        (∀ a < 34, 30 ≤ a → s.fileByte a = 0x00) := by decide

/-- V1 rows 1 and 16: two files that differ in bytes no test reads. -/
theorem witness_ParseOutcomeIgnoresUncheckedBytes :
    let s := withFile hdr32 blank
    let s' := withFile (patch 6 [0xFF, 0xFF] hdr32 ++ ras24) blank
    s.fault = false ∧ s'.fault = false ∧ s'.params = s.params ∧ s.fileByte 6 ≠ s'.fileByte 6 ∧
      (s.params.hdrBytes ≤ s.fileLen.toNat ∧ s.params.hdrBytes ≤ s'.fileLen.toNat) ∧
      (∀ a ∈ [0, 1, 28, 29, 30, 31, 32, 33], s'.fileByte a = s.fileByte a) := by decide
theorem witness_ParseOutcomeIgnoresUncheckedBytes_next :
    exec .parse (withFile hdr32 blank) = .next (after .parse (withFile hdr32 blank)) := rfl

/-- Widths −1, 0 and 2^31 − 1, heights 0 and −2^31. -/
theorem witness_DsizeComputesTheExactSizes :
    blank.hdrValid = false ∧ parsed.fault = false ∧
    (parsedSized [0xFF, 0xFF, 0xFF, 0xFF] [0x00, 0x00, 0x00, 0x00]).regValue .widthPx = some (-1) ∧
    (parsedSized [0x00, 0x00, 0x00, 0x00] [0x00, 0x00, 0x00, 0x00]).regValue .widthPx = some 0 ∧
    (parsedSized [0xFF, 0xFF, 0xFF, 0x7F] [0x00, 0x00, 0x00, 0x80]).regValue .widthPx = some 2147483647 ∧
    (parsedSized [0xFF, 0xFF, 0xFF, 0x7F] [0x00, 0x00, 0x00, 0x80]).regValue .heightPx = some (-2147483648) := by decide

theorem witness_NegativeWidthHasNoSize :
    (parsedSized [0x00, 0x00, 0x00, 0x80] [0x01, 0x00, 0x00, 0x00]).fault = false ∧
    (parsedSized [0x00, 0x00, 0x00, 0x80] [0x01, 0x00, 0x00, 0x00]).regValue .widthPx = some (-2147483648) ∧
    (parsedSized [0x00, 0x00, 0x00, 0x00] [0x01, 0x00, 0x00, 0x00]).regValue .widthPx = some 0 := by decide
theorem witness_NegativeWidthHasNoSize_next : exec .parse blank = .next (after .parse blank) := rfl

theorem witness_StrideIsTheLeastMultipleOfFour : parsed.fault = false ∧ parsed.regValue .widthPx = some 3 ∧
    (after .dsize parsed).fault = false ∧ (after .dsize parsed).regValue .rowStride = some 12 := by decide
theorem witness_StrideIsTheLeastMultipleOfFour_next : exec .dsize parsed = .next (after .dsize parsed) := rfl

theorem witness_LoadShortReadExactly :
    (∀ s ∈ [parsed, after .parse (withFile (hdr32 ++ ras24.take 23) blank)],
      s.fault = false ∧ s.regValue .widthPx = some 3 ∧ s.regValue .heightPx = some 2 ∧
        s.regValue .pixelDataOffset = some 54) ∧ (0 : Int) ≤ 3 := by decide
theorem witness_LoadShortReadExactly_sizes : specDataSize 3 2 = 24 ∧ ¬ (78 : Int) < 54 + 24 ∧ (77 : Int) < 54 + 24 := by
  rw [specDataSize_eq (by decide)]; decide

/-- V3 rows 1 and 7: exactly enough bytes, and nothing to copy at an offset beyond the file. -/
theorem witness_LoadCopiesTheRaster :
    (parsed.fault = false ∧ parsed.regValue .widthPx = some 3 ∧ parsed.regValue .heightPx = some 2 ∧
      parsed.regValue .pixelDataOffset = some 54 ∧ (parsed.fileLen.toNat : Int) = 78) ∧
    (let s := after .parse (withFile (patch 10 [0xFF, 0xFF, 0xFF, 0xFF]
        (hdrSized [0x00, 0x00, 0x00, 0x00] [0x00, 0x00, 0x00, 0x00])) blank);
      s.fault = false ∧ s.regValue .widthPx = some 0 ∧ s.regValue .heightPx = some 0 ∧
        s.regValue .pixelDataOffset = some 4294967295) := by decide
theorem witness_LoadCopiesTheRaster_sizes : 54 + specDataSize 3 2 = 78 ∧ specDataSize 0 0 = 0 := by
  rw [specDataSize_eq (by decide), specDataSize_eq (by decide)]; decide

theorem witness_StoreWritesHeaderThenBuffer_inv : State.Inv (withBuf ras24 parsed) := inv_of_check (by decide)
theorem witness_StoreWritesHeaderThenBuffer : (withBuf ras24 parsed).fault = false ∧
    (withBuf ras24 parsed).hdrValid = true := by decide

/-- PAYLOAD_LEN 255 and 256. -/
theorem witness_EncodeTooLargeExactly : blank.fault = false ∧ ¬ 256 ≤ ({ blank with payloadLen := 255 } : State).payloadLen.toNat ∧
    256 ≤ ({ blank with payloadLen := 256 } : State).payloadLen.toNat := by decide
theorem witness_EncodeBuildsTheFrame : ({ blank with payloadLen := 255 } : State).fault = false ∧
    ({ blank with payloadLen := 255 } : State).payloadLen.toNat ≤ 255 ∧ blank.payloadLen.toNat ≤ 255 := by decide

/-- ENCODE of the payload 0F and EXTRACT of V7 row 5's buffer. -/
theorem witness_EncodeAndExtractBuildTheSameFrame :
    let s := withMsg [0x0F] blank
    let s' := withBuf carrier blank
    s.fault = false ∧ s'.fault = false ∧ (after .encode s).fault = false ∧ (after .extract s').fault = false ∧
      (after .encode s).regValue .frameLen = (after .extract s').regValue .frameLen ∧
      (∀ k < s.payloadLen.toNat, (after .extract s').byteAt .frame (1 + k) = some (s.msgByte k)) := by decide
theorem witness_EncodeAndExtractBuildTheSameFrame_next :
    exec .encode (withMsg [0x0F] blank) = .next (after .encode (withMsg [0x0F] blank)) ∧
      exec .extract (withBuf carrier blank) = .next (after .extract (withBuf carrier blank)) := ⟨rfl, rfl⟩

/-- L = 0 with 7 and 8 carrier bytes. -/
theorem witness_EmbedOverflowExactly : ∀ n ∈ [7, 8], (framed [] (List.replicate n 0xFF)).fault = false ∧
    (framed [] (List.replicate n 0xFF)).regValue .frameLen = some 0 := by decide

/-- L = 1 with exactly 16 carrier bytes. -/
theorem witness_EmbedClosedForm :
    let s := framed [0x48] (List.replicate 16 0xFF)
    s.fault = false ∧ s.regValue .frameLen = some 1 ∧ (∀ k ≤ 1, s.byteAt .frame k = some ([0x01, 0x48].getD k 0)) ∧
      8 * (1 + 1) ≤ s.bufLen.toNat := by decide

theorem witness_EmbedTouchesOnlyBitZero : exec .embed (framed [0x48] (List.replicate 16 0xFF)) =
    .next (after .embed (framed [0x48] (List.replicate 16 0xFF))) := rfl

theorem witness_FrameBitsTravelLeastSignificantFirst :
    (let s := framed [0x48] (List.replicate 16 0xFF);
      s.fault = false ∧ (after .embed s).fault = false ∧ 1 < s.length .frame ∧ s.byteAt .frame 1 = some 0x48) ∧
    (let s := withBuf carrier blank;
      s.fault = false ∧ (after .extract s).fault = false ∧ 1 < (after .extract s).length .frame ∧
        (after .extract s).byteAt .frame 1 = some 0x0F) := by decide
theorem witness_FrameBitsTravelLeastSignificantFirst_next :
    exec .embed (framed [0x48] (List.replicate 16 0xFF)) = .next (after .embed (framed [0x48] (List.replicate 16 0xFF))) ∧
      exec .extract (withBuf carrier blank) = .next (after .extract (withBuf carrier blank)) := ⟨rfl, rfl⟩

theorem witness_ExtractBufferTooSmallExactly : (withBuf (carrier.take 7) blank).fault = false ∧
    (withBuf (carrier.take 7) blank).bufLen.toNat ≤ 7 ∧ ¬ (withBuf (carrier.take 8) blank).bufLen.toNat ≤ 7 := by decide

/-- L = 1 with 15 and 16 carrier bytes. -/
theorem witness_ExtractTruncatedExactly : ∀ n ∈ [15, 16], (withBuf (carrier.take n) blank).fault = false ∧
    8 ≤ (withBuf (carrier.take n) blank).bufLen.toNat := by decide

theorem witness_ExtractRebuildsTheFrame :
    let s := withBuf (carrier.take 16) blank
    s.fault = false ∧ 8 ≤ s.bufLen.toNat ∧ 1 = ∑ i ∈ Finset.range 8, (s.bufByte i &&& 1).toNat * 2 ^ i ∧
      8 + 8 * 1 ≤ s.bufLen.toNat := by decide

/-- V7 row 5's buffer, the same with the other bits of byte 0 and a byte beyond the frame changed, and the same with bit 0
of byte 8 changed. -/
theorem witness_ExtractDependsExactlyOnLowBits :
    let s := withBuf carrier blank
    let s' := withBuf (patch 16 [0x01] (patch 0 [0xFF] carrier)) blank
    let s'' := withBuf (patch 8 [0x00] carrier) blank
    s.fault = false ∧ s'.fault = false ∧ s'.bufLen = s.bufLen ∧ s''.bufLen = s.bufLen ∧ s'.bufByte 0 ≠ s.bufByte 0 ∧
      1 = ∑ i ∈ Finset.range 8, (s.bufByte i &&& 1).toNat * 2 ^ i ∧
      (∀ j < 8 * (1 + 1), (s'.bufByte j).getLsbD 0 = (s.bufByte j).getLsbD 0) ∧ (after .extract s).fault = false ∧
      (s''.bufByte 8).getLsbD 0 ≠ (s.bufByte 8).getLsbD 0 := by decide
theorem witness_ExtractDependsExactlyOnLowBits_next : exec .extract (withBuf carrier blank) =
    .next (after .extract (withBuf carrier blank)) := rfl

/-- S2: exactly 8 + 8·L carrier bytes, for L = 1. -/
theorem witness_EmbedThenExtractGivesTheFrameBack :
    let s := framed [0x48] (List.replicate 16 0x00)
    let t := after .embed s
    s.fault = false ∧ s.regValue .frameLen = some 1 ∧ 8 * (1 + 1) ≤ s.bufLen.toNat ∧ t.fault = false ∧
      8 * (1 + 1) ≤ t.bufLen.toNat ∧ (∀ j < 16, (after .store t).bufByte j = t.bufByte j) := by decide
theorem witness_EmbedThenExtractGivesTheFrameBack_inv : State.Inv (framed [0x48] (List.replicate 16 0x00)) :=
  inv_of_check (by decide)

theorem witness_EmbedIsIdempotentAndUndoesNothing :
    (let s := framed [0x48] (List.replicate 16 0x00);
      s.fault = false ∧ (after .embed s).fault = false) ∧
    (let s := withBuf carrier blank;
      s.fault = false ∧ (after .extract s).fault = false) := by decide
theorem witness_EmbedIsIdempotentAndUndoesNothing_next :
    exec .embed (framed [0x48] (List.replicate 16 0x00)) = .next (after .embed (framed [0x48] (List.replicate 16 0x00))) ∧
      exec .extract (withBuf carrier blank) = .next (after .extract (withBuf carrier blank)) := ⟨rfl, rfl⟩

/-- L = 0 with 7 and 8 carrier bytes, L = 1 with 15 and 16. -/
theorem witness_CapacityBoundary :
    (∀ n ∈ [7, 8], let s := framed [] (List.replicate n 0x00);
      s.fault = false ∧ s.regValue .frameLen = some 0 ∧ s.bufLen.toNat = n ∧ s.bufLen.toNat ≤ s.params.bufCap) ∧
    (∀ n ∈ [15, 16], let s := framed [0x48] (List.replicate n 0x00);
      s.fault = false ∧ s.regValue .frameLen = some 1 ∧ s.bufLen.toNat = n ∧ s.bufLen.toNat ≤ s.params.bufCap) := by decide

/-- P1 as a run of five steps, and P2's start. -/
def hideStart : State := { withMsg [0x48] (withFile (hdr32 ++ ras24) blank) with pending := issueAll Flow.hide.commands }
def hideEnd : State := nextOr hideStart (Sys2Proof.core.run 5 hideStart)
def revealStart : State := { withFile (hdr32 ++ embedded24) blank with pending := issueAll Flow.reveal.commands }
theorem witness_RevealOfHideGivesThePayload_inv : State.Inv hideStart := inv_of_check (by decide)
theorem witness_RevealOfHideGivesThePayload_run : Sys2Proof.core.run 5 hideStart = .next hideEnd :=
  eq_nextOr hideStart (by decide)
theorem witness_RevealOfHideGivesThePayload :
    hideStart.fault = false ∧ revealStart.fault = false ∧ revealStart.params = hideStart.params ∧ hideEnd.fault = false ∧
      hideEnd.regValue .pixelDataOffset = some (hideStart.params.hdrBytes : Int) ∧
      hideEnd.regValue .outLen = some (revealStart.fileLen.toNat : Int) ∧
      (∀ a < revealStart.fileLen.toNat, hideEnd.byteAt .out a = some (revealStart.fileByte a)) := by decide

/-- Each rule of 70_reset_and_hazards.md R261 (a) to (e) broken once. -/
theorem witness_ActionsOutsideTheHostRulesStop :
    (∀ a ∈ [HostAction.writeReg 0x02 4097, .writeReg 0x03 4097, .readReg 0x00, .writeReg 0x01 0, .writeMem .out 0 0,
      .readReg 0x08, .readMem .file 4096, .writeReg 0x04 4294967296], a.wf blank.params = false) ∧
    (Reg.ofNumber 0x13 = some .widthPx ∧ blank.regValue .widthPx = none) ∧
    (0 < Space.frame.size blank.params ∧ blank.byteAt .frame 0 = none) := by decide

theorem witness_ActionsInsideTheHostRulesComplete :
    (∀ a ∈ [HostAction.writeReg 0x02 4096, .writeReg 0x03 0, .writeReg 0x04 4294967295, .writeReg 0x00 255, .reset,
      .issue 0x07, .writeMem .msg 254 0xFF, .readMem .hdrRaw 53, .readReg 0x13], a.wf parsed.params = true) ∧
    parsed.regValue .widthPx ≠ none ∧ parsed.byteAt .hdrRaw 53 ≠ none := by decide

/-- The last index below each length, and the last index of each size, beyond the length. -/
theorem witness_HostReadsTheLatestWrite :
    let s := withMsg [0x48] (withBuf [0x00] parsed)
    (∀ p ∈ [(Space.file, 77), (.buf, 0), (.msg, 0)],
      p.1.hostWritable = true ∧ p.2 < p.1.size s.params ∧ p.2 < s.length p.1) ∧
    (∀ p ∈ [(Space.file, 4095), (.buf, 4095), (.msg, 254)],
      p.1.hostWritable = true ∧ p.2 < p.1.size s.params ∧ ¬ p.2 < s.length p.1) := by decide

/-- A register, the last architectural byte of HDR_RAW, FRAME and OUT, and the first byte of FRAME and OUT beyond. -/
theorem witness_HostReadsAnswerWhatIsHeld :
    let s := after .store (after .encode (withMsg [0x48] parsed))
    s.fault = false ∧ s.regValue .widthPx = some 3 ∧
    (∀ p ∈ [(Space.hdrRaw, 53, (0x00 : Byte)), (.frame, 1, 0x48), (.out, 1, 0x4D)],
      p.2.1 < p.1.size s.params ∧ p.2.1 < s.length p.1 ∧ s.byteAt p.1 p.2.1 = some p.2.2) ∧
    (∀ p ∈ [(Space.frame, 2), (.out, 54)], p.2 < p.1.size s.params ∧ s.length p.1 ≤ p.2) ∧
    (s.mem .frame).isSome = true := by decide
/-- A byte beyond the length of a memory that holds a value is some byte, whatever the free value is. -/
theorem witness_HostReadsAnswerWhatIsHeld_beyond :
    (after .store (after .encode (withMsg [0x48] parsed))).byteAt .frame 2 ≠ none := by
  intro h
  have hs : ((after .store (after .encode (withMsg [0x48] parsed))).mem .frame).isSome = true := by decide
  rw [State.byteAt, Option.map_eq_none_iff] at h
  rw [h] at hs
  cases hs

/-- The largest values each length register takes. -/
theorem witness_HostSetsTheLengths : 4096 < 2 ^ 64 ∧ 4096 ≤ blank.params.fileCap ∧ 4096 ≤ blank.params.bufCap ∧
    4294967295 < 2 ^ 32 := by decide

end Sys2Proof.Tests
end

section
/-! Where a frame's bits lie in the carrier (20_memory.md R62, R63), for EMBED and for EXTRACT. -/

namespace Sys2Proof.Machine

/-! ### The frame through the state's views -/

theorem State.length_frame {s : State} {f : Memory} (h : s.frame = some f) :
    s.length .frame = 1 + (s.frameLenOf f).toNat := by simp only [State.length, h]

theorem State.byteAt_frame {s : State} {f : Memory} (h : s.frame = some f) (k : Nat) :
    s.byteAt .frame k = some (s.byteOf .frame f k) := by simp only [State.byteAt, State.mem, h, Option.map_some]

/-! ### What a successful EMBED or EXTRACT did -/

theorem exec_embed_nofault {s t : State} (hs : s.fault = false) (h : exec .embed s = .next t) (ht : t.fault = false) :
    ∃ f, s.frame = some f ∧ requiredBits (s.frameLenOf f).toNat ≤ s.bufLen.toNat ∧
      t = { s with buf := s.embedded f, byteIndex := BitVec.ofNat 64 (requiredBits (s.frameLenOf f).toNat) } := by
  have hok : embedBody s = .ok t := exec_nofault hs h ht
  rcases embedBody_cases s with ⟨-, e⟩ | ⟨_, -, -, e⟩ | ⟨f, hf, hfits, e⟩ <;> rw [e] at hok <;> cases hok
  exact ⟨f, hf, hfits, rfl⟩

theorem exec_extract_nofault {s t : State} (hs : s.fault = false) (h : exec .extract s = .next t)
    (ht : t.fault = false) :
    8 ≤ s.bufLen.toNat ∧ requiredBits (lsbByte s.bufByte 0).toNat ≤ s.bufLen.toNat ∧
      t = { s with
        frame := some (frameDecode (lsbByte s.bufByte 0) (fun k => lsbByte s.bufByte (8 + 8 * k)))
        byteIndex := BitVec.ofNat 64 (requiredBits (lsbByte s.bufByte 0).toNat) } := by
  have hok : extractBody s = .ok t := exec_nofault hs h ht
  rcases extractBody_cases s with ⟨-, e⟩ | ⟨-, -, e⟩ | ⟨hmin, hfits, e⟩ <;> rw [e] at hok <;> cases hok
  exact ⟨hmin, hfits, rfl⟩

/-! ### The bits -/

/-- The embedded buffer's own eight low bits from 8·k spell FRAME[k], so its bits are theirs one by one. -/
theorem State.embedded_getLsbD_zero (s : State) (f : Memory) {k i : Nat} (hk : k ≤ (s.frameLenOf f).toNat) (hi : i < 8) :
    (s.byteOf .buf (s.embedded f) (8 * k + i)).getLsbD 0 = (s.byteOf .frame f k).getLsbD i := by
  rw [← lsbByte_getLsbD _ _ _ hi, s.lsbByte_embedded f _ hk (fun _ _ _ => rfl)]

/-- The length byte and the payload bytes of the extracted frame follow one rule: byte k is spelled from 8·k. -/
theorem State.byteOf_frameDecode_lsbByte (s : State) (rd : Nat → Byte) {k : Nat} (hk : k ≤ (lsbByte rd 0).toNat) :
    s.byteOf .frame (frameDecode (lsbByte rd 0) (fun k => lsbByte rd (8 + 8 * k))) k = lsbByte rd (8 * k) := by
  cases k with
  | zero => exact s.byteOf_frameDecode_zero _ _
  | succ k =>
    rw [show k + 1 = 1 + k by omega, s.byteOf_frameDecode_succ _ (by omega), show 8 * (1 + k) = 8 + 8 * k by omega]

theorem embed_frame_bit {s t : State} {k i : Nat} {b : Byte} (hs : s.fault = false) (h : exec .embed s = .next t)
    (ht : t.fault = false) (hk : k < s.length .frame) (hi : i < 8) (hb : s.byteAt .frame k = some b) :
    (t.bufByte (8 * k + i)).getLsbD 0 = b.getLsbD i := by
  obtain ⟨f, hf, -, rfl⟩ := exec_embed_nofault hs h ht
  rw [State.length_frame hf] at hk
  rw [State.byteAt_frame hf, Option.some_inj] at hb
  rw [← hb]
  exact s.embedded_getLsbD_zero f (by omega) hi

theorem extract_frame_bit {s t : State} {k i : Nat} {b : Byte} (hs : s.fault = false) (h : exec .extract s = .next t)
    (ht : t.fault = false) (hk : k < t.length .frame) (hi : i < 8) (hb : t.byteAt .frame k = some b) :
    b.getLsbD i = (s.bufByte (8 * k + i)).getLsbD 0 := by
  obtain ⟨-, -, rfl⟩ := exec_extract_nofault hs h ht
  rw [State.length_frame rfl, State.frameLenOf, State.byteOf_frameDecode_zero] at hk
  rw [State.byteAt_frame rfl, State.byteOf_frameDecode_lsbByte _ _ (by omega), Option.some_inj] at hb
  rw [← hb, lsbByte_getLsbD _ _ _ hi]

/-- Settles O33: EMBED's half is `embed_frame_bit`, EXTRACT's half `extract_frame_bit`. -/
theorem frameBitsTravelLeastSignificantFirst : Obligations.FrameBitsTravelLeastSignificantFirst :=
  ⟨fun _ _ _ _ _ => embed_frame_bit, fun _ _ _ _ _ => extract_frame_bit⟩

end Sys2Proof.Machine
end

section
/-! The opcode map (30_encoding.md R94) and the reserved codes (R95). -/

namespace Sys2Proof.Machine

/-- The decoder inverts the encoder: a byte decodes to `i` exactly when it is `i`'s command byte. -/
theorem decode_eq_ok_iff {b : Byte} {i : Instr} : decode b = .ok i ↔ encode i = b := by
  constructor
  · exact encode_of_decode
  · rintro rfl
    exact decode_encode i

/-- The selection rule of 30_encoding.md R94: every row's mask is 0xFF, which keeps the whole byte. -/
theorem decode_eq_ok_iff_mask (b : Byte) (i : Instr) : decode b = .ok i ↔ b &&& 0xFF = encode i := by
  rw [show (0xFF : Byte) = BitVec.allOnes 8 from rfl, BitVec.and_allOnes, decode_eq_ok_iff, eq_comm]

/-- Settles O1: each clause is `decode_eq_ok_iff_mask` at one command. -/
theorem opcodeMapSelectsTheSevenCommands : Obligations.OpcodeMapSelectsTheSevenCommands :=
  ⟨(decode_eq_ok_iff_mask · .parse), (decode_eq_ok_iff_mask · .dsize), (decode_eq_ok_iff_mask · .load),
    (decode_eq_ok_iff_mask · .store), (decode_eq_ok_iff_mask · .encode), (decode_eq_ok_iff_mask · .embed),
    (decode_eq_ok_iff_mask · .extract)⟩

/-- The command codes are 0x01 to 0x07 (30_encoding.md R94). -/
theorem encode_toNat_bounds (i : Instr) : 0 < (encode i).toNat ∧ (encode i).toNat < 8 := by cases i <;> decide

/-- The codes 0x00 and 0x08 to 0xFF are no command's (30_encoding.md R95). -/
theorem decode_reserved {c : Byte} (hc : c = 0x00 ∨ 0x08 ≤ c.toNat) : ∃ e, decode c = .error e := by
  cases hd : decode c with
  | error e => exact ⟨e, rfl⟩
  | ok i =>
    obtain ⟨hpos, hlt⟩ := encode_toNat_bounds i
    rw [encode_of_decode hd] at hpos hlt
    rcases hc with rfl | hc
    · simp at hpos
    · omega

/-- Settles O3: `decode_reserved`, then the two answers of an issue, `issue_reserved` and `issue_ignored`. -/
theorem reservedCodesRaiseIllegalCommand : Obligations.ReservedCodesRaiseIllegalCommand := by
  intro c s hc
  obtain ⟨e, hd⟩ := decode_reserved hc
  constructor
  · intro hs
    exact ⟨s.raise .specIllegalCommand, issue_reserved hs hd, s.fault_raise _, s.err_raise _, rfl⟩
  · intro hs
    exact issue_ignored hs c

end Sys2Proof.Machine
end

section
/-! PARSE: which test decides the error (41_header_parse.md R112 to R115, R117), and the header a success leaves (R116). -/

namespace Sys2Proof.Machine

/-- PARSE's tests answer the error of the first one that fails (41_header_parse.md R117). -/
theorem parseBody_eq_error_iff (s : State) :
    (parseBody s = .error .formatTruncated ↔ ¬ s.params.hdrBytes ≤ s.fileLen.toNat) ∧
    (parseBody s = .error .formatBadMagic ↔
      s.params.hdrBytes ≤ s.fileLen.toNat ∧ ¬ magicField s.fileByte = magicBM) ∧
    (parseBody s = .error .formatUnsupportedBitDepth ↔
      s.params.hdrBytes ≤ s.fileLen.toNat ∧ magicField s.fileByte = magicBM ∧
        ¬ bitsPerPixelField s.fileByte = bppRequired) ∧
    (parseBody s = .error .formatUnsupportedCompression ↔
      s.params.hdrBytes ≤ s.fileLen.toNat ∧ magicField s.fileByte = magicBM ∧
        bitsPerPixelField s.fileByte = bppRequired ∧ ¬ compressionField s.fileByte = compressionRequired) := by
  rcases parseBody_cases s with ⟨hshort, e⟩ | ⟨hlong, hmagic, e⟩ | ⟨hlong, hmagic, hdepth, e⟩ |
    ⟨hlong, hmagic, hdepth, hcomp, e⟩ | ⟨hlong, hmagic, hdepth, hcomp, e⟩
  · simp [e, hshort]
  · simp [e, hlong, hmagic]
  · simp [e, hlong, hmagic, hdepth]
  · simp [e, hlong, hmagic, hdepth, hcomp]
  · simp [e, hlong, hmagic, hdepth, hcomp]

/-- Settles O18: an `exec` that raises is a test that answers (`exec_eq_raise_iff`), and each field test is a test of the
field's bytes. -/
theorem parseFaultsInListedOrder : Obligations.ParseFaultsInListedOrder := by
  intro s hs
  obtain ⟨hlen, hmagic, hdepth, hcomp⟩ := parseBody_eq_error_iff s
  simp only [magicField_eq_iff, bitsPerPixelField_eq_iff, compressionField_eq_iff] at hmagic hdepth hcomp
  exact ⟨(exec_eq_raise_iff hs).trans hlen, (exec_eq_raise_iff hs).trans hmagic, (exec_eq_raise_iff hs).trans hdepth,
    (exec_eq_raise_iff hs).trans hcomp, rfl, rfl, rfl, rfl⟩

/-! ### The state a successful PARSE leaves -/

/-- The state with the header copied from FILE and no sizes (41_header_parse.md R116); `exec_parse_passes` ties it to
PARSE. -/
def State.withHeader (s : State) : State :=
  { s with hdrRaw := some (Memory.ofFn s.params.hdrBytes s.fileByte), sizes := none }

theorem exec_parse_passes {s : State} (hs : s.fault = false) (hlong : s.params.hdrBytes ≤ s.fileLen.toNat)
    (hmagic : magicField s.fileByte = magicBM) (hdepth : bitsPerPixelField s.fileByte = bppRequired)
    (hcomp : compressionField s.fileByte = compressionRequired) : exec .parse s = .next s.withHeader := by
  rcases parseBody_cases s with ⟨hshort, -⟩ | ⟨-, hne, -⟩ | ⟨-, -, hne, -⟩ | ⟨-, -, -, hne, -⟩ | ⟨-, -, -, -, hok⟩
  · omega
  · exact absurd hmagic hne
  · exact absurd hdepth hne
  · exact absurd hcomp hne
  · exact command_ok hs hok

theorem State.byteAt_withHeader_hdrRaw (s : State) {a : Nat} (ha : a < s.params.hdrBytes) :
    s.withHeader.byteAt .hdrRaw a = some (s.fileByte a) :=
  congrArg some (State.byteOf_ofFn s.fileByte ha)

theorem State.byteAt_withHeader_ne (s : State) {sp : Space} (h : sp ≠ .hdrRaw) (a : Nat) :
    s.withHeader.byteAt sp a = s.byteAt sp a := by
  have hmem : s.withHeader.mem sp = s.mem sp := by
    cases sp with
    | hdrRaw => exact absurd rfl h
    | file | buf | msg | frame | out => rfl
  exact State.byteAt_congr hmem rfl a

/-- The header registers are the file's fields: HDR_BYTES ≥ 38 covers all eight (20_memory.md R69). -/
theorem State.headerRegs_withHeader {s : State} (h38 : 38 ≤ s.params.hdrBytes) :
    s.withHeader.regValue .magic = some (magicField s.fileByte : Int) ∧
    s.withHeader.regValue .fileSize = some (fileSizeField s.fileByte : Int) ∧
    s.withHeader.regValue .pixelDataOffset = some (pixelDataOffsetField s.fileByte : Int) ∧
    s.withHeader.regValue .widthPx = some (widthPxField s.fileByte) ∧
    s.withHeader.regValue .heightPx = some (heightPxField s.fileByte) ∧
    s.withHeader.regValue .bitsPerPixel = some (bitsPerPixelField s.fileByte : Int) ∧
    s.withHeader.regValue .compression = some (compressionField s.fileByte : Int) ∧
    s.withHeader.regValue .imageSizeBytes = some (imageSizeBytesField s.fileByte : Int) := by
  have hbytes : ∀ a < 38,
      s.withHeader.byteOf .hdrRaw (Memory.ofFn s.params.hdrBytes s.fileByte) a = s.fileByte a :=
    fun a ha => State.byteOf_ofFn s.fileByte (by omega)
  obtain ⟨h1, h2, h3, h4, h5, h6, h7, h8⟩ := headerFields_congr hbytes
  rw [← h1, ← h2, ← h3, ← h4, ← h5, ← h6, ← h7, ← h8]
  exact ⟨rfl, rfl, rfl, rfl, rfl, rfl, rfl, rfl⟩

/-- Settles O19: the state is `s.withHeader`. -/
theorem parseMakesTheHeaderAvailable : Obligations.ParseMakesTheHeaderAvailable := by
  intro s hs h38 hlong h0 h1 h28 h29 hzero
  have hmagic := (magicField_eq_iff s.fileByte).2 ⟨h0, h1⟩
  have hdepth := (bitsPerPixelField_eq_iff s.fileByte).2 ⟨h28, h29⟩
  have hcomp := (compressionField_eq_iff s.fileByte).2
    ⟨hzero 30 (by omega) (by omega), hzero 31 (by omega) (by omega), hzero 32 (by omega) (by omega),
      hzero 33 (by omega) (by omega)⟩
  obtain ⟨rmagic, rsize, roffset, rwidth, rheight, rdepth, rcomp, rimage⟩ := State.headerRegs_withHeader h38
  rw [hmagic] at rmagic
  rw [hdepth] at rdepth
  rw [hcomp] at rcomp
  exact ⟨s.withHeader, exec_parse_passes hs hlong hmagic hdepth hcomp, hs, rfl, rfl,
    fun _ => s.byteAt_withHeader_hdrRaw, rmagic, rsize, roffset, rwidth, rheight, rdepth, rcomp, rimage, rfl,
    fun _ a hsp => s.byteAt_withHeader_ne hsp a⟩

end Sys2Proof.Machine
end

section
/-! DSIZE's sizes are the exact numbers (42_pixel_buffer.md R133, R137), and a negative width has none (R131). -/

namespace Sys2Proof.Machine

/-! ### A negative width -/

/-- DSIZE and LOAD test the width alike, right after the header's presence (42_pixel_buffer.md R131). -/
theorem body_eq_negativeWidth_iff {i : Instr} (hi : i ∈ [Instr.dsize, .load]) {s : State} {m : Memory}
    (hm : s.hdrRaw = some m) :
    body i s = .error .specNegativeWidth ↔ widthPxField (s.byteOf .hdrRaw m) < 0 := by
  simp only [List.mem_cons, List.not_mem_nil, or_false] at hi
  rcases hi with rfl | rfl
  · change dsizeBody s = _ ↔ _
    rcases dsizeBody_cases s with ⟨hm', -⟩ | ⟨_, hm', hw, e⟩ | ⟨_, _, hm', hw, -, e⟩ <;> cases hm.symm.trans hm'
    · simp [e, hw]
    · simp [e, hw]
  · change loadBody s = _ ↔ _
    rcases loadBody_cases s with ⟨hm', -⟩ | ⟨_, hm', hw, e⟩ | ⟨_, _, hm', hw, -, -, e⟩ | ⟨_, _, hm', hw, -, -, e⟩ <;>
      cases hm.symm.trans hm'
    · simp [e, hw]
    · simp [e, hw]
    · simp [e, hw]

theorem exec_eq_negativeWidth_iff {i : Instr} (hi : i ∈ [Instr.dsize, .load]) {s : State} {w : Int}
    (hs : s.fault = false) (hw : s.regValue .widthPx = some w) :
    exec i s = .next (s.raise .specNegativeWidth) ↔ w < 0 := by
  obtain ⟨m, hm, rfl⟩ := State.headerReg_eq_some hw
  exact (exec_eq_raise_iff hs).trans (body_eq_negativeWidth_iff hi hm)

/-- The codes of PARSE's own errors (41_header_parse.md R112 to R115). -/
theorem parseBody_error_code {s : State} {e : ErrorKind} (h : parseBody s = .error e) :
    e.code ∈ ([0x10, 0x11, 0x12, 0x13] : List Byte) := by
  rcases parseBody_cases s with ⟨-, k⟩ | ⟨-, -, k⟩ | ⟨-, -, -, k⟩ | ⟨-, -, -, -, k⟩ | ⟨-, -, -, -, k⟩ <;>
    rw [k] at h <;> cases h <;> decide

theorem State.err_eq_zero {s : State} (h : s.fault = false) : s.err = 0x00 := by
  simp [State.err, State.fault_eq_false.1 h]

theorem exec_parse_err_ne_negativeWidth {s t : State} (hs : s.fault = false) (h : exec .parse s = .next t) :
    t.err ≠ 0xE2 := by
  rcases exec_cases h with ⟨hf, -⟩ | ⟨-, hok⟩ | ⟨-, e, he, rfl⟩
  · simp [hs] at hf
  · rw [State.err_eq_zero (body_ok_fault hok hs)]
    decide
  · rw [State.err_raise]
    intro hcode
    have hmem := parseBody_error_code he
    rw [hcode] at hmem
    exact absurd hmem (by decide)

/-- Settles O22: the test of the width, the error's code, and PARSE's own list of errors. -/
theorem negativeWidthHasNoSize : Obligations.NegativeWidthHasNoSize :=
  ⟨fun _ _ hs hw _ hi => exec_eq_negativeWidth_iff hi hs hw, fun _ => rfl,
    fun _ _ hs h => exec_parse_err_ne_negativeWidth hs h⟩

/-! ### The exact sizes -/

/-- The sizes of a header whose width is not negative are the source's formulas of the two header registers. -/
theorem State.headerSizes_exact {s : State} {w h : Int} (hw : s.regValue .widthPx = some w)
    (hh : s.regValue .heightPx = some h) (hw0 : 0 ≤ w) :
    ∃ m z, s.hdrRaw = some m ∧ s.headerSizes m = .ok z ∧ (z.rowStride.toNat : Int) = specStride w ∧
      (z.heightAbs.toNat : Int) = |h| ∧ (z.dataSize.toNat : Int) = specDataSize w h := by
  obtain ⟨m, hm, rfl⟩ := State.headerReg_eq_some hw
  obtain ⟨_, hm', rfl⟩ := State.headerReg_eq_some hh
  cases hm.symm.trans hm'
  rcases s.headerSizes_cases m with ⟨hneg, -⟩ | ⟨z, -, hz, hstride, habs, hsize⟩
  · omega
  · refine ⟨m, z, hm, hz, ?_, ?_, ?_⟩
    · rw [specStride_eq hw0, hstride]
    · rw [Int.abs_eq_natAbs, habs]
    · rw [specDataSize_eq hw0, hsize, hstride, habs]

theorem exec_dsize_sequence {s : State} (hs : s.fault = false) (hn : s.hdrValid = false) :
    exec .dsize s = .next (s.raise .specSequence) := by
  have hraw : s.hdrRaw = none := by simpa [State.hdrValid] using hn
  rcases dsizeBody_cases s with ⟨-, e⟩ | ⟨_, hm, -⟩ | ⟨_, _, hm, -⟩
  · exact command_error hs e
  · cases hraw.symm.trans hm
  · cases hraw.symm.trans hm

theorem exec_dsize_ok {s : State} {m : Memory} {z : Sizes} (hs : s.fault = false) (hm : s.hdrRaw = some m)
    (hz : s.headerSizes m = .ok z) : exec .dsize s = .next { s with sizes := some z } :=
  command_ok hs (show dsizeBody s = _ by simp only [dsizeBody, hm, hz])

/-- Settles O21: `exec_dsize_sequence`, `exec_eq_negativeWidth_iff`, and the numbers of `State.headerSizes_exact`. -/
theorem dsizeComputesTheExactSizes : Obligations.DsizeComputesTheExactSizes := by
  refine fun s hs => ⟨exec_dsize_sequence hs, fun w h hw hh => ⟨(exec_eq_negativeWidth_iff (by decide) hs hw).2, ?_⟩⟩
  intro hw0
  obtain ⟨m, z, hm, hz, hstride, habs, hsize⟩ := State.headerSizes_exact hw hh hw0
  exact ⟨{ s with sizes := some z }, exec_dsize_ok hs hm hz, hs, rfl, congrArg some hstride, congrArg some habs,
    congrArg some hsize, rfl, fun _ _ => rfl⟩

end Sys2Proof.Machine
end

section
/-! STORE: the header verbatim, then the buffer (42_pixel_buffer.md R147, R148). -/

namespace Sys2Proof.Machine

/-- The output file STORE builds from the header `m`; `exec_store` ties it to STORE. -/
def State.outFile (s : State) (m : Memory) : OutFile where
  len := BitVec.ofNat 64 (s.params.hdrBytes + s.bufLen.toNat)
  mem := Memory.ofFn (s.params.hdrBytes + s.bufLen.toNat) (fun i =>
    if i < s.params.hdrBytes then s.byteOf .hdrRaw m i else s.bufByte (i - s.params.hdrBytes))

/-- The state a successful STORE leaves: only OUT and OUT_LEN are written. -/
def State.stored (s : State) (m : Memory) : State := { s with out := some (s.outFile m) }

theorem exec_store {s : State} {m : Memory} (hs : s.fault = false) (hm : s.hdrRaw = some m) :
    exec .store s = .next (s.stored m) := by
  rcases storeBody_cases s with ⟨hm', -⟩ | ⟨_, hm', e⟩ <;> cases hm.symm.trans hm'
  exact command_ok hs e

/-- OUT_LEN holds the sum: OUT_CAP bounds it below 2^64 (00_scope.md R10, log 2). -/
theorem State.Inv.outFile_len_toNat {s : State} (hs : s.Inv) (m : Memory) :
    (s.outFile m).len.toNat = s.params.hdrBytes + s.bufLen.toNat := by
  obtain ⟨-, -, -, hcap, hout⟩ := hs.params_wf
  have hbuf := hs.bufLen_le
  rw [State.outFile, BitVec.toNat_ofNat, Nat.mod_eq_of_lt (by omega)]

theorem State.byteAt_stored_header {s : State} {m : Memory} {i : Nat} (hm : s.hdrRaw = some m)
    (hi : i < s.params.hdrBytes) : (s.stored m).byteAt .out i = s.byteAt .hdrRaw i := by
  have hread : (s.stored m).byteOf .out (s.outFile m).mem i = s.byteOf .hdrRaw m i := by
    rw [State.outFile, State.byteOf_ofFn _ (by omega), if_pos hi]
  rw [State.byteAt, State.byteAt, State.mem, State.mem, hm]
  exact congrArg some hread

theorem State.byteAt_stored_buffer (s : State) (m : Memory) {i : Nat} (hi : i < s.bufLen.toNat) :
    (s.stored m).byteAt .out (s.params.hdrBytes + i) = s.byteAt .buf i := by
  have hread : (s.stored m).byteOf .out (s.outFile m).mem (s.params.hdrBytes + i) = s.bufByte i := by
    rw [State.outFile, State.byteOf_ofFn _ (by omega), if_neg (by omega), Nat.add_sub_cancel_left]
  exact congrArg some hread

theorem State.byteAt_stored_ne (s : State) (m : Memory) {sp : Space} (h : sp ≠ .out) (a : Nat) :
    (s.stored m).byteAt sp a = s.byteAt sp a := by
  have hmem : (s.stored m).mem sp = s.mem sp := by
    cases sp with
    | out => exact absurd rfl h
    | file | hdrRaw | buf | msg | frame => rfl
  exact State.byteAt_congr hmem rfl a

/-- Settles O26: the state is `s.stored m` for the header `m`. -/
theorem storeWritesHeaderThenBuffer : Obligations.StoreWritesHeaderThenBuffer := by
  intro s hinv hs hv
  obtain ⟨m, hm⟩ := Option.isSome_iff_exists.1 hv
  have hlen : ((s.outFile m).len.toNat : Int) = s.params.hdrBytes + s.bufLen.toNat := by
    rw [hinv.outFile_len_toNat m, Nat.cast_add]
  exact ⟨s.stored m, exec_store hs hm, hs, rfl, congrArg some hlen, fun _ => State.byteAt_stored_header hm,
    fun _ => s.byteAt_stored_buffer m, rfl, fun _ a hsp => s.byteAt_stored_ne m hsp a⟩

end Sys2Proof.Machine
end

section
/-! ENCODE: the length it refuses (43_message_frame.md R163) and the frame it builds (R164). -/

namespace Sys2Proof.Machine

theorem encodeBody_eq_tooLarge_iff (s : State) :
    encodeBody s = .error .framingTooLarge ↔ 256 ≤ s.payloadLen.toNat := by
  rcases encodeBody_cases s with ⟨hlarge, e⟩ | ⟨hsmall, e⟩
  · exact iff_of_true e hlarge
  · exact iff_of_false (by simp [e]) (by omega)

/-- Settles O27: an ENCODE that raises is its one test answering (`exec_eq_raise_iff`). -/
theorem encodeTooLargeExactly : Obligations.EncodeTooLargeExactly :=
  fun s hs => ⟨(exec_eq_raise_iff hs).trans (encodeBody_eq_tooLarge_iff s), rfl⟩

/-! ### The state a successful ENCODE leaves -/

/-- FRAME as ENCODE builds it from PAYLOAD_LEN and MSG; `exec_encode` ties it to ENCODE. -/
def State.payloadFrame (s : State) : Memory := frameDecode (BitVec.ofNat 8 s.payloadLen.toNat) s.msgByte

/-- The state a successful ENCODE leaves: only FRAME is written. -/
def State.encoded (s : State) : State := { s with frame := some s.payloadFrame }

theorem exec_encode {s : State} (hs : s.fault = false) (hlen : s.payloadLen.toNat ≤ 255) :
    exec .encode s = .next s.encoded := by
  rcases encodeBody_cases s with ⟨hlarge, -⟩ | ⟨-, e⟩
  · omega
  · exact command_ok hs e

theorem State.byteAt_encoded_zero (s : State) :
    s.encoded.byteAt .frame 0 = some (BitVec.ofNat 8 s.payloadLen.toNat) :=
  congrArg some (s.encoded.byteOf_frameDecode_zero _ _)

/-- "FRAME[0] is PAYLOAD_LEN as one byte" (43_message_frame.md R164): up to 255 nothing of it is lost. -/
theorem State.payloadLen_byte_toNat {s : State} (hlen : s.payloadLen.toNat ≤ 255) :
    (BitVec.ofNat 8 s.payloadLen.toNat).toNat = s.payloadLen.toNat := by
  rw [BitVec.toNat_ofNat, Nat.mod_eq_of_lt (by omega)]

theorem State.frameLenOf_encoded_toNat {s : State} (hlen : s.payloadLen.toNat ≤ 255) :
    (s.encoded.frameLenOf s.payloadFrame).toNat = s.payloadLen.toNat := by
  rw [State.frameLenOf, State.payloadFrame, State.byteOf_frameDecode_zero, State.payloadLen_byte_toNat hlen]

theorem State.byteAt_encoded_payload {s : State} (hlen : s.payloadLen.toNat ≤ 255) {i : Nat}
    (hi : i < s.payloadLen.toNat) : s.encoded.byteAt .frame (1 + i) = some (s.msgByte i) := by
  rw [← State.payloadLen_byte_toNat hlen] at hi
  exact congrArg some (s.encoded.byteOf_frameDecode_succ _ hi)

theorem State.byteAt_encoded_ne (s : State) {sp : Space} (h : sp ≠ .frame) (a : Nat) :
    s.encoded.byteAt sp a = s.byteAt sp a := by
  have hmem : s.encoded.mem sp = s.mem sp := by
    cases sp with
    | frame => exact absurd rfl h
    | file | hdrRaw | buf | msg | out => rfl
  exact State.byteAt_congr hmem rfl a

/-- FRAME is a copy: no host write of a memory byte, MSG's included, reaches it. -/
theorem act_writeMem_byteAt_frame {sp : Space} {i : Nat} {b : Byte} {s t : State}
    (h : act (.writeMem sp i b) s = .next t) (a : Nat) : t.byteAt .frame a = s.byteAt .frame a := by
  obtain ⟨-, ⟨-, rfl⟩ | ⟨-, rfl⟩ | ⟨-, rfl⟩⟩ := hostWriteMem_cases h
  · rfl
  · rfl
  · rfl

/-- Settles O28: the state is `s.encoded`; FRAME_LEN and the frame's length both read its length byte. -/
theorem encodeBuildsTheFrame : Obligations.EncodeBuildsTheFrame := by
  intro s hs hlen
  have hframeLen := State.frameLenOf_encoded_toNat hlen
  have hlength : s.encoded.length .frame = 1 + s.payloadLen.toNat := by rw [State.length_frame rfl, hframeLen]
  exact ⟨s.encoded, exec_encode hs hlen, hs, rfl, congrArg (fun n : Nat => some (n : Int)) hframeLen,
    s.byteAt_encoded_zero, fun _ => State.byteAt_encoded_payload hlen, hlength, rfl,
    fun _ a hsp => s.byteAt_encoded_ne hsp a, fun _ _ _ => act_writeMem_byteAt_frame⟩

end Sys2Proof.Machine
end

section
/-! EMBED: the frame it refuses and the bytes it reaches (44_lsb_codec.md R178). -/

namespace Sys2Proof.Machine

/-- The state a successful EMBED of the frame `f` leaves: only BUF and BYTE_INDEX are written. -/
def State.afterEmbed (s : State) (f : Memory) : State :=
  { s with buf := s.embedded f, byteIndex := BitVec.ofNat 64 (requiredBits (s.frameLenOf f).toNat) }

theorem exec_embed {s : State} {f : Memory} (hs : s.fault = false) (hf : s.frame = some f)
    (hfits : requiredBits (s.frameLenOf f).toNat ≤ s.bufLen.toNat) : exec .embed s = .next (s.afterEmbed f) := by
  rcases embedBody_cases s with ⟨hf', -⟩ | ⟨_, hf', hover, -⟩ | ⟨_, hf', -, e⟩ <;> cases hf.symm.trans hf'
  · omega
  · exact command_ok hs e

theorem exec_embed_overflow_iff {s : State} {f : Memory} (hs : s.fault = false) (hf : s.frame = some f) :
    exec .embed s = .next (s.raise .capacityOverflow) ↔ s.bufLen.toNat < requiredBits (s.frameLenOf f).toNat := by
  refine (exec_eq_raise_iff hs).trans ?_
  change embedBody s = _ ↔ _
  rcases embedBody_cases s with ⟨hf', -⟩ | ⟨_, hf', hover, e⟩ | ⟨_, hf', hfits, e⟩ <;> cases hf.symm.trans hf'
  · exact iff_of_true e hover
  · exact iff_of_false (by simp [e]) (by omega)

theorem State.bufByte_afterEmbed_of_ge (s : State) (f : Memory) {j : Nat}
    (hj : requiredBits (s.frameLenOf f).toNat ≤ j) : (s.afterEmbed f).bufByte j = s.bufByte j :=
  (s.embedded_read f j).trans (if_neg (by omega))

/-- "no EMBED changes a byte of BUF at BUF_LEN or beyond": a frame that is written lies below BUF_LEN. -/
theorem exec_embed_bufByte_of_ge {s t : State} (h : exec .embed s = .next t) {j : Nat} (hj : s.bufLen.toNat ≤ j) :
    t.bufByte j = s.bufByte j := by
  rcases exec_cases h with ⟨-, rfl⟩ | ⟨hs, hok⟩ | ⟨-, e, -, rfl⟩
  · rfl
  · obtain ⟨f, -, hfits, rfl⟩ := exec_embed_nofault hs h (body_ok_fault hok hs)
    exact s.bufByte_afterEmbed_of_ge f (by omega)
  · rfl

/-- Settles O30: the test of EMBED against the frame's own length byte, and the two bounds on the bytes it reaches. -/
theorem embedOverflowExactly : Obligations.EmbedOverflowExactly := by
  intro s len hs hlen
  obtain ⟨f, hf, rfl⟩ := State.frameLen_eq_some hlen
  have hbits : s.bufLen.toNat < requiredBits (s.frameLenOf f).toNat ↔
      (s.bufLen.toNat : Int) < 8 * (1 + ((s.frameLenOf f).toNat : Int)) := by
    rw [requiredBits]
    omega
  exact ⟨(exec_embed_overflow_iff hs hf).trans hbits, rfl, fun _ => rfl, rfl,
    fun _ h _ => exec_embed_bufByte_of_ge h⟩

end Sys2Proof.Machine
end

section
/-! EXTRACT: which test decides the error (44_lsb_codec.md R186, R188), and the frame a success leaves (R187, R189, R190). -/

namespace Sys2Proof.Machine

/-- The state a successful EXTRACT leaves: only FRAME and BYTE_INDEX are written. -/
def State.afterExtract (s : State) : State :=
  { s with
    frame := some (frameDecode (lsbByte s.bufByte 0) (fun k => lsbByte s.bufByte (8 + 8 * k)))
    byteIndex := BitVec.ofNat 64 (requiredBits (lsbByte s.bufByte 0).toNat) }

/-- EXTRACT's tests answer the error of the first one that fails. -/
theorem extractBody_eq_error_iff (s : State) :
    (extractBody s = .error .framingBufferTooSmall ↔ s.bufLen.toNat < 8) ∧
    (extractBody s = .error .framingTruncated ↔
      8 ≤ s.bufLen.toNat ∧ s.bufLen.toNat < requiredBits (lsbByte s.bufByte 0).toNat) := by
  rcases extractBody_cases s with ⟨hsmall, e⟩ | ⟨hmin, hover, e⟩ | ⟨hmin, hfits, e⟩
  · simp [e, hsmall]
  · simp [e, hmin, hover]
  · simp [e, hmin, hfits]

theorem exec_extract_bufferTooSmall_iff {s : State} (hs : s.fault = false) :
    exec .extract s = .next (s.raise .framingBufferTooSmall) ↔ s.bufLen.toNat < 8 :=
  (exec_eq_raise_iff hs).trans (extractBody_eq_error_iff s).1

theorem exec_extract_truncated_iff {s : State} (hs : s.fault = false) :
    exec .extract s = .next (s.raise .framingTruncated) ↔
      8 ≤ s.bufLen.toNat ∧ s.bufLen.toNat < requiredBits (lsbByte s.bufByte 0).toNat :=
  (exec_eq_raise_iff hs).trans (extractBody_eq_error_iff s).2

/-- A buffer that holds the announced frame holds its length byte too, so one test is left. -/
theorem exec_extract {s : State} (hs : s.fault = false)
    (hfits : requiredBits (lsbByte s.bufByte 0).toNat ≤ s.bufLen.toNat) : exec .extract s = .next s.afterExtract := by
  rcases extractBody_cases s with ⟨hsmall, -⟩ | ⟨-, hover, -⟩ | ⟨-, -, e⟩
  · rw [requiredBits] at hfits
    omega
  · omega
  · exact command_ok hs e

/-- Settles O34: the first test of EXTRACT. -/
theorem extractBufferTooSmallExactly : Obligations.ExtractBufferTooSmallExactly :=
  fun _ hs => ⟨(exec_extract_bufferTooSmall_iff hs).trans Nat.lt_succ_iff, rfl⟩

/-- The announced length is Σ (BUF[i] & 1)·2^i over the first eight carrier bytes (44_lsb_codec.md R187). -/
theorem lsbByte_zero_toNat (rd : Nat → Byte) :
    (lsbByte rd 0).toNat = ∑ i ∈ Finset.range 8, (rd i &&& 1).toNat * 2 ^ i := by
  simp only [lsbByte_toNat, Nat.zero_add]

/-- Settles O35: the second test of EXTRACT, with the announced length as its sum of low bits. -/
theorem extractTruncatedExactly : Obligations.ExtractTruncatedExactly := by
  intro s hs hmin
  rw [← lsbByte_zero_toNat, exec_extract_truncated_iff hs, requiredBits, Nat.mul_add, Nat.mul_one]
  exact ⟨and_iff_right hmin, rfl, rfl, rfl⟩

/-! ### The state a successful EXTRACT leaves -/

/-- The cursor after a frame: a length byte is too small for it to leave its 64 bits. -/
theorem State.regValue_byteIndex_of_requiredBits {s : State} {len : Byte}
    (h : s.byteIndex = BitVec.ofNat 64 (requiredBits len.toNat)) :
    s.regValue .byteIndex = some (8 * (1 + (len.toNat : Int))) := by
  have hlt : requiredBits len.toNat < 2 ^ 64 := by
    have := len.isLt
    rw [requiredBits]
    omega
  rw [State.regValue, h, BitVec.toNat_ofNat, Nat.mod_eq_of_lt hlt, requiredBits]
  push_cast
  rfl

/-- Byte k of the extracted frame, the length byte among them, is spelled from carrier byte 8·k. -/
theorem State.byteAt_afterExtract_frame (s : State) {k : Nat} (hk : k ≤ (lsbByte s.bufByte 0).toNat) :
    s.afterExtract.byteAt .frame k = some (lsbByte s.bufByte (8 * k)) :=
  congrArg some (s.afterExtract.byteOf_frameDecode_lsbByte s.bufByte hk)

theorem State.regValue_frameLen_afterExtract (s : State) :
    s.afterExtract.regValue .frameLen = some ((lsbByte s.bufByte 0).toNat : Int) :=
  congrArg (fun b : Byte => some (b.toNat : Int)) (s.afterExtract.byteOf_frameDecode_zero _ _)

theorem State.length_frame_afterExtract (s : State) :
    s.afterExtract.length .frame = 1 + (lsbByte s.bufByte 0).toNat :=
  congrArg (fun b : Byte => 1 + b.toNat) (s.afterExtract.byteOf_frameDecode_zero _ _)

theorem State.byteAt_afterExtract_ne (s : State) {sp : Space} (h : sp ≠ .frame) (a : Nat) :
    s.afterExtract.byteAt sp a = s.byteAt sp a := by
  have hmem : s.afterExtract.mem sp = s.mem sp := by
    cases sp with
    | frame => exact absurd rfl h
    | file | hdrRaw | buf | msg | out => rfl
  exact State.byteAt_congr hmem rfl a

/-- Settles O36: the state is `s.afterExtract`, and each byte of its frame is a sum of low bits (`lsbByte_toNat`). -/
theorem extractRebuildsTheFrame : Obligations.ExtractRebuildsTheFrame := by
  intro s len hs _ hlen hfits
  rw [← lsbByte_zero_toNat] at hlen
  subst hlen
  have hpayload : ∀ k < (lsbByte s.bufByte 0).toNat, ∃ b, s.afterExtract.byteAt .frame (1 + k) = some b ∧
      b.toNat = ∑ i ∈ Finset.range 8, (s.bufByte (8 + 8 * k + i) &&& 1).toNat * 2 ^ i := by
    intro k hk
    exact ⟨_, s.byteAt_afterExtract_frame (by omega), by rw [lsbByte_toNat, Nat.mul_add, Nat.mul_one]⟩
  exact ⟨s.afterExtract, exec_extract hs (by rw [requiredBits]; omega), hs, rfl, s.regValue_frameLen_afterExtract,
    s.length_frame_afterExtract, ⟨_, s.byteAt_afterExtract_frame (Nat.zero_le _), rfl⟩, hpayload,
    State.regValue_byteIndex_of_requiredBits rfl, rfl, fun _ a hsp => s.byteAt_afterExtract_ne hsp a⟩

end Sys2Proof.Machine
end

section
/-! The pair: EXTRACT of what EMBED wrote (44_lsb_codec.md R194), and the buffer one byte too short for it (R197). -/

namespace Sys2Proof.Machine

/-- Where a state still holds the eight carrier bytes EMBED wrote for FRAME[k], they spell FRAME[k]. -/
theorem State.lsbByte_bufByte_of_afterEmbed {s t' : State} {f : Memory} {k : Nat} (hk : k ≤ (s.frameLenOf f).toNat)
    (hbuf : ∀ j < 8 * (k + 1), t'.bufByte j = (s.afterEmbed f).bufByte j) :
    lsbByte t'.bufByte (8 * k) = s.byteOf .frame f k :=
  s.lsbByte_embedded f t'.bufByte hk fun j _ hj => congrArg (·.getLsbD 0) (hbuf j hj)

/-- The case k = 0: eight carrier bytes are enough for the length byte. -/
theorem State.lsbByte_zero_of_afterEmbed {s t' : State} {f : Memory}
    (hbuf : ∀ j < 8, t'.bufByte j = (s.afterEmbed f).bufByte j) : lsbByte t'.bufByte 0 = s.frameLenOf f :=
  State.lsbByte_bufByte_of_afterEmbed (k := 0) (Nat.zero_le _) hbuf

/-- Settles O38: every byte the later EXTRACT spells is the frame's (`State.lsbByte_bufByte_of_afterEmbed`), and two
memories that list the same indices and read alike are equal. -/
theorem embedThenExtractGivesTheFrameBack : Obligations.EmbedThenExtractGivesTheFrameBack := by
  intro s len hs hlen hfits
  obtain ⟨f, hf, hflen⟩ := State.frameLen_eq_some hlen
  obtain rfl : (s.frameLenOf f).toNat = len := Int.ofNat_inj.1 hflen
  refine ⟨s.afterEmbed f, exec_embed hs hf hfits, hs, rfl, fun t' hs' hfits' hbuf => ?_⟩
  have hspell : ∀ k ≤ (s.frameLenOf f).toNat, lsbByte t'.bufByte (8 * k) = s.byteOf .frame f k :=
    fun k hk => State.lsbByte_bufByte_of_afterEmbed hk fun j hj => hbuf j (by omega)
  have hL : lsbByte t'.bufByte 0 = s.frameLenOf f :=
    State.lsbByte_zero_of_afterEmbed fun j hj => hbuf j (by omega)
  have hbytes : ∀ k ≤ (s.frameLenOf f).toNat, t'.afterExtract.byteAt .frame k = s.byteAt .frame k := by
    intro k hk
    rw [t'.byteAt_afterExtract_frame (by rw [hL]; exact hk), hspell k hk, State.byteAt_frame hf]
  have hframe : s.Inv → t'.afterExtract.frame = s.frame := by
    intro hinv
    rw [hf]
    refine congrArg some (Memory.ext_of_covers (hL ▸ frameDecode_covers _ _) (hinv.frame_ok f hf)
      (t'.afterExtract.freeOf .frame) (s.freeOf .frame) fun k hk => ?_)
    have hk := hbytes k (by omega)
    rw [State.byteAt_frame rfl, State.byteAt_frame hf] at hk
    exact Option.some_inj.1 hk
  exact ⟨t'.afterExtract, exec_extract hs' (by rw [hL]; exact hfits'), hs', hL ▸ t'.regValue_frameLen_afterExtract,
    hbytes, hframe, State.regValue_byteIndex_of_requiredBits (hL ▸ rfl)⟩

/-! ### One byte less -/

/-- A byte below the new BUF_LEN is in no range the host's write gives up (log 4). -/
theorem State.bufByte_setBufLen_of_lt (s : State) {n : Word64} {j : Nat} (hj : j < n.toNat) :
    (s.setBufLen n).bufByte j = s.bufByte j := by
  have hdrops : (s.setBufLen n).drops .buf j = s.drops .buf j := by
    simp only [State.drops, State.setBufLen_bufDropped]
    split
    · rw [List.countP_cons_of_neg (by simp [Nat.not_le.2 hj])]
    · rfl
  simp [State.bufByte, State.byteOf, Memory.read, Memory.lookup_dropRange, State.freeOf, hdrops, hj]

/-- EXTRACT of an embedded buffer whose BUF_LEN the host then lowered by one (90_conflicts.md C2). -/
theorem exec_extract_afterEmbed_shortened {s : State} {f : Memory} {n : Word64} (hs : s.fault = false)
    (hn : n.toNat = 8 + 8 * (s.frameLenOf f).toNat - 1) :
    exec .extract ((s.afterEmbed f).setBufLen n) = .next (((s.afterEmbed f).setBufLen n).raise
      (if (s.frameLenOf f).toNat = 0 then .framingBufferTooSmall else .framingTruncated)) := by
  have hsu : ((s.afterEmbed f).setBufLen n).fault = false := hs
  split
  next hzero =>
    rw [exec_extract_bufferTooSmall_iff hsu, State.setBufLen_bufLen]
    omega
  next hpos =>
    have hL : lsbByte ((s.afterEmbed f).setBufLen n).bufByte 0 = s.frameLenOf f :=
      State.lsbByte_zero_of_afterEmbed fun j hj => State.bufByte_setBufLen_of_lt _ (by omega)
    rw [exec_extract_truncated_iff hsu, State.setBufLen_bufLen, hL, requiredBits]
    omega

/-- Settles O40: EMBED's own boundary, then `exec_extract_afterEmbed_shortened` after the host's write of BUF_LEN. -/
theorem capacityBoundary : Obligations.CapacityBoundary := by
  intro s len hs hlen
  obtain ⟨f, hf, hflen⟩ := State.frameLen_eq_some hlen
  obtain rfl : (s.frameLenOf f).toNat = len := Int.ofNat_inj.1 hflen
  constructor
  · intro hshort
    rw [exec_embed_overflow_iff hs hf, requiredBits]
    omega
  · intro hexact hcap
    have hlt : 8 + 8 * (s.frameLenOf f).toNat - 1 < 2 ^ 64 := by
      have := s.bufLen.isLt
      omega
    have hn : (BitVec.ofNat 64 (8 + 8 * (s.frameLenOf f).toNat - 1)).toNat = 8 + 8 * (s.frameLenOf f).toNat - 1 := by
      rw [BitVec.toNat_ofNat, Nat.mod_eq_of_lt hlt]
    have hcap' : 8 + 8 * (s.frameLenOf f).toNat - 1 ≤ (s.afterEmbed f).params.bufCap := by
      change _ ≤ s.params.bufCap
      omega
    exact ⟨s.afterEmbed f, _, exec_embed hs hf (by rw [requiredBits]; omega), hs, act_writeBufLen hlt hcap',
      exec_extract_afterEmbed_shortened hs hn⟩

end Sys2Proof.Machine
end

section
/-! A missing stage raises Sequence (60_exceptions.md R219). -/

namespace Sys2Proof.Machine

/-- The presence of the header is the first test of DSIZE, LOAD and STORE. -/
theorem body_of_hdrRaw_eq_none {i : Instr} (hi : i ∈ [Instr.dsize, .load, .store]) {s : State} (h : s.hdrRaw = none) :
    body i s = .error .specSequence := by
  simp only [List.mem_cons, List.not_mem_nil, or_false] at hi
  rcases hi with rfl | rfl | rfl
  · simp only [body, dsizeBody, h]
  · simp only [body, loadBody, h]
  · simp only [body, storeBody, h]

/-- The presence of the frame is the first test of EMBED. -/
theorem body_embed_of_frame_eq_none {s : State} (h : s.frame = none) : body .embed s = .error .specSequence := by
  simp only [body, embedBody, h]

theorem exec_sequence {i : Instr} {s : State} (hs : s.fault = false) (hb : body i s = .error .specSequence) :
    ∃ t, exec i s = .next t ∧ t.fault = true ∧ t.err = 0xE1 ∧ t = { s with error := t.error } :=
  ⟨s.raise .specSequence, (exec_eq_raise_iff hs).2 hb, rfl, rfl, rfl⟩

theorem ErrorKind.code_eq_sequence_iff (e : ErrorKind) : e.code = 0xE1 ↔ e = .specSequence := by cases e <;> decide

/-- No other error has the code 0xE1, so ERR tells whether a stage was missing. -/
theorem exec_err_eq_sequence_iff {i : Instr} {s t : State} (hs : s.fault = false) (h : exec i s = .next t) :
    t.err = 0xE1 ↔ body i s = .error .specSequence := by
  rcases exec_cases h with ⟨hf, -⟩ | ⟨-, hok⟩ | ⟨-, e, he, rfl⟩
  · simp [hs] at hf
  · rw [State.err_eq_zero (body_ok_fault hok hs), hok]
    exact iff_of_false (by decide) (by simp)
  · rw [State.err_raise, e.code_eq_sequence_iff, he, Except.error.injEq]

/-- PARSE, ENCODE and EXTRACT test no stage. -/
theorem body_ne_sequence {i : Instr} (hi : i ∈ [Instr.parse, .encode, .extract]) (s : State) :
    body i s ≠ .error .specSequence := by
  simp only [List.mem_cons, List.not_mem_nil, or_false] at hi
  rcases hi with rfl | rfl | rfl
  · exact fun h => absurd (parseBody_error_code h) (by decide)
  · rcases encodeBody_cases s with ⟨-, e⟩ | ⟨-, e⟩ <;> simp [body, e]
  · rcases extractBody_cases s with ⟨-, e⟩ | ⟨-, -, e⟩ | ⟨-, -, e⟩ <;> simp [body, e]

/-- Settles O9: `exec_sequence` for the four commands with a stage to test, `exec_err_eq_sequence_iff` for the other
three. -/
theorem missingStageRaisesSequence : Obligations.MissingStageRaisesSequence := by
  refine ⟨fun s hs hv i hi => ?_, fun s hs hv => ?_, fun s t hs i hi h => ?_⟩
  · have hraw : s.hdrRaw = none := by simpa [State.hdrValid] using hv
    exact exec_sequence hs (body_of_hdrRaw_eq_none hi hraw)
  · have hframe : s.frame = none := by simpa [State.frameValid] using hv
    exact exec_sequence hs (body_embed_of_frame_eq_none hframe)
  · exact mt (exec_err_eq_sequence_iff hs h).1 (body_ne_sequence hi s)

end Sys2Proof.Machine
end

section
/-! While FAULT = 1 (60_exceptions.md R224): writes to CMD are ignored, host reads answer, host writes go through. -/

namespace Sys2Proof.Machine

/-! ### Writes to CMD -/

theorem act_cmd_ignored {a : HostAction} {s : State} (hs : s.fault = true)
    (ha : (∃ c, a = .issue c) ∨ ∃ v < 256, a = .writeReg 0x00 v) : act a s = .next s := by
  rcases ha with ⟨c, rfl⟩ | ⟨v, hv, rfl⟩
  · exact issue_ignored hs c
  · exact (act_writeCmd hv s).trans (issue_ignored hs _)

theorem run_cmd_ignored {writes rest : List HostAction} {s : State} (hs : s.fault = true)
    (hw : ∀ a ∈ writes, (∃ c, a = .issue c) ∨ ∃ v < 256, a = .writeReg 0x00 v) (hp : s.pending = writes ++ rest) :
    Sys2Proof.core.run writes.length s = .next { s with pending := rest } := by
  induction writes generalizing s with
  | nil =>
    obtain rfl : s.pending = rest := hp
    exact run_zero s
  | cons a writes ih =>
    have hstep : step s = .next { s with pending := writes ++ rest } :=
      (step_act hp).trans (act_cmd_ignored hs (hw a List.mem_cons_self))
    rw [List.length_cons, run_succ hstep]
    exact ih hs (fun b hb => hw b (List.mem_cons_of_mem a hb)) rfl

/-! ### Host reads -/

theorem act_readReg {n : Byte} {r : Reg} {v : Int} {s : State} (hr : Reg.ofNumber n = some r) (hc : r ≠ .cmd)
    (hv : s.regValue r = some v) : act (.readReg n) s = .next (s.reply (.reg r v)) := by
  simp only [act, hostReadReg, hr, hc, hv, if_false]

theorem act_readMem {sp : Space} {i : Nat} {b : Byte} {s : State} (hlen : i < s.length sp) (hi : i < sp.size s.params)
    (hb : s.byteAt sp i = some b) : act (.readMem sp i) s = .next (s.reply (.byte sp i b)) := by
  simp only [act, hostReadMem, Nat.not_le.2 hi, hb, hlen, if_false, if_true]

/-! ### Host writes inside the host rules (70_reset_and_hazards.md R261) -/

/-- The register writes inside the host rules: the four writable registers, each with the values it takes. -/
theorem HostAction.wf_writeReg_cases {p : Params} {n : Byte} {v : Nat} (h : HostAction.wf p (.writeReg n v) = true) :
    (n = Reg.cmd.number ∧ v < 256) ∨ (n = Reg.fileLen.number ∧ v < 2 ^ 64 ∧ v ≤ p.fileCap) ∨
      (n = Reg.bufLen.number ∧ v < 2 ^ 64 ∧ v ≤ p.bufCap) ∨ (n = Reg.payloadLen.number ∧ v < 2 ^ 32) := by
  cases hr : Reg.ofNumber n with
  | none => simp [HostAction.wf, hr] at h
  | some r =>
    obtain rfl := Reg.number_of_ofNumber hr
    simp only [HostAction.wf, hr, Bool.and_eq_true, Bool.or_eq_true, decide_eq_true_eq, bne_iff_ne] at h
    obtain ⟨⟨⟨hwritable, hwidth⟩, hfile⟩, hbuf⟩ := h
    cases r with
    | cmd => exact .inl ⟨rfl, hwidth⟩
    | fileLen => exact .inr (.inl ⟨rfl, hwidth, hfile.resolve_left (absurd rfl)⟩)
    | bufLen => exact .inr (.inr (.inl ⟨rfl, hwidth, hbuf.resolve_left (absurd rfl)⟩))
    | payloadLen => exact .inr (.inr (.inr ⟨rfl, hwidth⟩))
    | _ => cases hwritable

theorem act_writeReg_next_of_wf {n : Byte} {v : Nat} {s : State} (h : HostAction.wf s.params (.writeReg n v) = true) :
    ∃ t, act (.writeReg n v) s = .next t := by
  rcases HostAction.wf_writeReg_cases h with ⟨rfl, hv⟩ | ⟨rfl, hv, hcap⟩ | ⟨rfl, hv, hcap⟩ | ⟨rfl, hv⟩
  · rw [act_writeCmd hv]
    exact issue_next _ s
  · exact ⟨_, act_writeFileLen hv hcap⟩
  · exact ⟨_, act_writeBufLen hv hcap⟩
  · exact ⟨_, act_writePayloadLen hv s⟩

theorem act_writeMem_next_of_wf {sp : Space} {i : Nat} {b : Byte} {s : State}
    (h : HostAction.wf s.params (.writeMem sp i b) = true) : ∃ t, act (.writeMem sp i b) s = .next t := by
  obtain ⟨hwritable, hi⟩ : sp.hostWritable = true ∧ i < sp.size s.params := by simpa [HostAction.wf] using h
  cases sp with
  | file | buf | msg => exact ⟨_, if_neg (Nat.not_le.2 hi)⟩
  | hdrRaw | frame | out => cases hwritable

/-- No host action but reset changes the error or a result while FAULT = 1. -/
theorem act_faulted_keeps_results {a : HostAction} {s t : State} (hs : s.fault = true) (ha : a ≠ .reset)
    (h : act a s = .next t) : t.error = s.error ∧ t.hdrRaw = s.hdrRaw ∧ t.sizes = s.sizes ∧ t.frame = s.frame ∧
      t.out = s.out ∧ t.byteIndex = s.byteIndex := by
  rcases act_cases h with ⟨_, _, rfl, -⟩ | ⟨_, -, -, rfl, -⟩ | ⟨_, -, -, rfl, -⟩ | ⟨_, rfl, -⟩ | ⟨_, _, -, rfl, -⟩ |
    ⟨_, _, -, rfl, -⟩ | ⟨_, _, -, rfl, -⟩ | ⟨hreset, -⟩ | ⟨c, hissue, -⟩
  any_goals exact ⟨rfl, rfl, rfl, rfl, rfl, rfl⟩
  · exact absurd hreset ha
  · cases (issue_ignored hs c).symm.trans hissue
    exact ⟨rfl, rfl, rfl, rfl, rfl, rfl⟩

/-- Settles O10: `run_cmd_ignored`, the two reads, and a legal write or issue, which goes through and, by
`act_faulted_keeps_results`, reaches no result. -/
theorem faultIsSticky : Obligations.FaultIsSticky := by
  refine ⟨fun _ _ _ => run_cmd_ignored, fun _ _ _ _ _ hr hc hv => ⟨_, act_readReg hr hc hv, rfl⟩,
    fun _ _ _ _ _ hlen hi hb => ⟨_, act_readMem hlen hi hb, rfl⟩, fun s a hs hreg hmem hreset hwf => ?_⟩
  obtain ⟨t, ht⟩ : ∃ t, act a s = .next t := by
    cases a with
    | readReg n => exact absurd rfl (hreg n)
    | readMem sp i => exact absurd rfl (hmem sp i)
    | reset => exact absurd rfl hreset
    | issue c => exact issue_next c s
    | writeReg n v => exact act_writeReg_next_of_wf hwf
    | writeMem sp i b => exact act_writeMem_next_of_wf hwf
  exact ⟨t, ht, act_faulted_keeps_results hs hreset ht⟩

end Sys2Proof.Machine
end

section
/-! Decode and encode agree on whole sequences (30_encoding.md R97), and a step runs what it decodes (60_exceptions.md
R215, 70_reset_and_hazards.md R258, R260). -/

namespace Sys2Proof.Machine

/-! ### Sequences of command bytes -/

theorem decodeSeq_cons_of_ok {b : Byte} {bs : List Byte} {i : Instr} {is : List Instr} (hb : decode b = .ok i)
    (hbs : decodeSeq bs = .ok is) : decodeSeq (b :: bs) = .ok (i :: is) := by simp only [decodeSeq, hb, hbs]

theorem decodeSeq_cons_eq_ok {b : Byte} {bs : List Byte} {is : List Instr} (h : decodeSeq (b :: bs) = .ok is) :
    ∃ j js, decode b = .ok j ∧ decodeSeq bs = .ok js ∧ is = j :: js := by
  cases hb : decode b with
  | error e => simp [decodeSeq, hb] at h
  | ok j =>
    cases hbs : decodeSeq bs with
    | error e => simp [decodeSeq, hb, hbs] at h
    | ok js =>
      rw [decodeSeq_cons_of_ok hb hbs] at h
      cases h
      exact ⟨j, js, rfl, rfl, rfl⟩

theorem decodeSeq_encodeSeq (is : List Instr) : decodeSeq (encodeSeq is) = .ok is := by
  induction is with
  | nil => rfl
  | cons i is ih => exact decodeSeq_cons_of_ok (decode_encode i) ih

theorem encodeSeq_of_decodeSeq {bs : List Byte} {is : List Instr} (h : decodeSeq bs = .ok is) : encodeSeq is = bs := by
  induction bs generalizing is with
  | nil =>
    cases h
    rfl
  | cons b bs ih =>
    obtain ⟨j, js, hb, hbs, rfl⟩ := decodeSeq_cons_eq_ok h
    rw [encodeSeq, List.map_cons, encode_of_decode hb, ← ih hbs, encodeSeq]

/-- Settles O2: `decode_encode` for one command, and the two inductions over sequences. -/
theorem decodeAndEncodeAgreeOnSequences : Obligations.DecodeAndEncodeAgreeOnSequences :=
  ⟨fun i _ => decode_encode i, decodeSeq_encodeSeq, fun _ _ => encodeSeq_of_decodeSeq⟩

/-! ### The step that issues a byte -/

/-- Both ways of issuing a byte, the issue itself and a write to CMD (10_state.md R42), are one step. -/
theorem step_issues {s : State} {b : Byte} {rest : List HostAction}
    (hp : s.pending = .issue b :: rest ∨ ∃ v, s.pending = .writeReg 0x00 v :: rest ∧ v < 256 ∧ b = BitVec.ofNat 8 v) :
    step s = issue b { s with pending := rest } := by
  rcases hp with hp | ⟨v, hp, hv, rfl⟩
  · exact step_act hp
  · exact (step_act hp).trans (act_writeCmd hv _)

/-- Settles O4: `step_issues`, then the three answers of an issue. -/
theorem stepRunsTheDecodedCommand : Obligations.StepRunsTheDecodedCommand := by
  intro s b rest hp
  rw [step_issues hp]
  have hfault : State.fault { s with pending := rest } = s.fault := rfl
  rw [← hfault]
  generalize ({ s with pending := rest } : State) = u
  exact ⟨fun hs => issue_ignored hs b, fun hs _ hd => issue_reserved hs hd, fun hs _ hd => issue_command hs hd⟩

theorem decode_commandByte_of_decodeTableWord {nbits w : Nat} {i : Instr} (h : decodeTableWord nbits w = some i) :
    decode (commandByte nbits w) = .ok i := by
  cases hd : decode (commandByte nbits w) with
  | error e => simp [decodeTableWord, hd] at h
  | ok j =>
    simp only [decodeTableWord, hd, Option.some.injEq] at h
    rw [h]

/-- Settles O5: the placed word is the step's next action, its byte is `w % 2 ^ 8`, and an empty list is `step_idle`. -/
theorem fetchedWordRunsNextAndIdleBlockStays : Obligations.FetchedWordRunsNextAndIdleBlockStays := by
  refine ⟨fun s w i hs hd => ?_, fun w w' hw => ?_, fun _ => step_idle⟩
  · have hstep : step (s.withFetchWord 8 w) = issue (commandByte 8 w) s := step_act (s := s.withFetchWord 8 w) rfl
    rw [hstep, issue_command hs (decode_commandByte_of_decodeTableWord hd)]
  · have hbyte : commandByte 8 w = commandByte 8 w' := congrArg (BitVec.ofNat 8) hw
    rw [decodeTableWord, decodeTableWord, hbyte]

/-- Settles O6: every command runs in the frame `command`, which always answers a next state. -/
theorem everyCommandAnswersANextState : Obligations.EveryCommandAnswersANextState := by
  intro i s
  rw [exec_eq_command]
  exact command_next s _

end Sys2Proof.Machine
end

section
/-! The invariant (10_state.md section 6): every command and every host action keeps it. One lemma per change of the
state. -/

namespace Sys2Proof.Machine

/-! ### The shared changes of the state -/

theorem State.Inv.withPending {s : State} (hs : s.Inv) (rest : List HostAction) :
    State.Inv { s with pending := rest } := { hs with }

theorem State.Inv.withReplies {s : State} (hs : s.Inv) (rs : List Reply) (k : Nat) :
    State.Inv { s with replies := rs, strays := k } := { hs with }

theorem State.Inv.raise {s : State} (hs : s.Inv) (e : ErrorKind) : (s.raise e).Inv := { hs with }

theorem State.Inv.withPayloadLen {s : State} (hs : s.Inv) (n : Word32) : State.Inv { s with payloadLen := n } :=
  { hs with }

theorem State.Inv.withFileLen {s : State} (hs : s.Inv) {n : Word64} (hn : n.toNat ≤ s.params.fileCap) :
    State.Inv { s with fileLen := n } :=
  { hs with fileLen_le := hn }

theorem State.Inv.setBufLen {s : State} (hs : s.Inv) {n : Word64} (hn : n.toNat ≤ s.params.bufCap) :
    (s.setBufLen n).Inv :=
  { hs with bufLen_le := hn, buf_within := Memory.within_dropRange hs.buf_within _ _ }

theorem State.Inv.writeFile {s : State} (hs : s.Inv) {i : Nat} (hi : i < s.params.fileCap) (b : Byte) :
    State.Inv { s with file := s.file.write i b } :=
  { hs with file_within := Memory.within_write hs.file_within hi b }

theorem State.Inv.writeBuf {s : State} (hs : s.Inv) {i : Nat} (hi : i < s.params.bufCap) (b : Byte) :
    State.Inv { s with buf := s.buf.write i b } :=
  { hs with buf_within := Memory.within_write hs.buf_within hi b }

theorem State.Inv.writeMsg {s : State} (hs : s.Inv) {i : Nat} (hi : i < 255) (b : Byte) :
    State.Inv { s with msg := s.msg.write i b } :=
  { hs with msg_within := Memory.within_write hs.msg_within hi b }

/-! ### Reset -/

theorem Memory.within_nil (cap : Nat) : Memory.within [] cap := ⟨.nil, by simp⟩

/-- A state with the registers and memories of reset meets the invariant, whatever the model's own fields hold. -/
theorem State.inv_resetOf {p : Params} (hp : p.wf) : (State.resetOf p).Inv where
  params_wf := hp
  file_within := Memory.within_nil _
  buf_within := Memory.within_nil _
  msg_within := Memory.within_nil _
  fileLen_le := Nat.zero_le _
  bufLen_le := Nat.zero_le _
  header_ok := by simp [State.resetOf]
  sizes_ok := by simp [State.resetOf]
  frame_ok := by simp [State.resetOf]
  out_ok := by simp [State.resetOf]

theorem State.Inv.resetEvent {s : State} (hs : s.Inv) : s.resetEvent.Inv :=
  { State.inv_resetOf hs.params_wf with
    header_ok := by simp
    sizes_ok := by simp
    frame_ok := by simp
    out_ok := by simp }

/-- Settles O15: `State.inv_resetOf`, at the parameters of log 2 too. -/
theorem resetMeetsTheInvariant : Obligations.ResetMeetsTheInvariant :=
  ⟨fun _ => State.inv_resetOf, State.inv_resetOf (by decide)⟩

/-! ### The commands -/

/-- A header copied from a file that passed PARSE's three tests is a valid one. -/
theorem State.headerOk_withHeader {s : State} (h38 : 38 ≤ s.params.hdrBytes) (hmagic : magicField s.fileByte = magicBM)
    (hdepth : bitsPerPixelField s.fileByte = bppRequired) (hcomp : compressionField s.fileByte = compressionRequired) :
    s.withHeader.headerOk (Memory.ofFn s.params.hdrBytes s.fileByte) := by
  have hbytes : ∀ a < 38,
      s.withHeader.byteOf .hdrRaw (Memory.ofFn s.params.hdrBytes s.fileByte) a = s.fileByte a :=
    fun a ha => State.byteOf_ofFn s.fileByte (by omega)
  obtain ⟨h1, -, -, -, -, h6, h7, -⟩ := headerFields_congr hbytes
  exact ⟨Memory.covers_ofFn _ _, h1.trans hmagic, h6.trans hdepth, h7.trans hcomp⟩

theorem State.Inv.parse {s t : State} (hs : s.Inv) (h : parseBody s = .ok t) : t.Inv := by
  obtain ⟨-, hmagic, hdepth, hcomp, rfl⟩ := parseBody_ok h
  have hheader := State.headerOk_withHeader hs.params_wf.1 hmagic hdepth hcomp
  exact { hs with
    header_ok := fun _ hm => Option.some_inj.1 hm ▸ hheader
    sizes_ok := by simp }

/-- The sizes DSIZE and LOAD compute are the header's. -/
theorem State.sizesOk_of_headerSizes {s : State} {m : Memory} {z : Sizes} (hz : s.headerSizes m = .ok z) :
    s.sizesOk m z := by
  rcases s.headerSizes_cases m with ⟨-, hz'⟩ | ⟨_, hw, hz', hstride, habs, hsize⟩ <;> cases hz.symm.trans hz'
  exact ⟨hw, hstride, habs, hsize⟩

theorem State.Inv.dsize {s t : State} (hs : s.Inv) (h : dsizeBody s = .ok t) : t.Inv := by
  rcases dsizeBody_cases s with ⟨-, e⟩ | ⟨_, -, -, e⟩ | ⟨m, z, hm, -, hz, e⟩ <;> rw [e] at h <;> cases h
  exact { hs with
    sizes_ok := fun _ hz' => ⟨m, hm, Option.some_inj.1 hz' ▸ State.sizesOk_of_headerSizes hz⟩ }

theorem State.Inv.load {s t : State} (hs : s.Inv) (h : loadBody s = .ok t) : t.Inv := by
  rcases loadBody_cases s with ⟨-, e⟩ | ⟨_, -, -, e⟩ | ⟨_, _, -, -, -, -, e⟩ | ⟨m, z, hm, -, hz, hfits, e⟩ <;>
    rw [e] at h <;> cases h
  obtain ⟨-, -, hbufCap, -, -⟩ := hs.params_wf
  have hlen : z.dataSize.toNat ≤ s.params.bufCap := by
    have := hs.fileLen_le
    omega
  exact { hs with
    buf_within := Memory.within_ofFn hlen _
    bufLen_le := hlen
    sizes_ok := fun _ hz' => ⟨m, hm, Option.some_inj.1 hz' ▸ State.sizesOk_of_headerSizes hz⟩ }

theorem State.Inv.store {s t : State} (hs : s.Inv) (h : storeBody s = .ok t) : t.Inv := by
  rcases storeBody_cases s with ⟨-, e⟩ | ⟨m, -, e⟩ <;> rw [e] at h <;> cases h
  obtain ⟨-, -, -, houtCap, -⟩ := hs.params_wf
  have hlen := hs.outFile_len_toNat m
  have hbuf := hs.bufLen_le
  have hout : (s.outFile m).mem.covers (s.outFile m).len.toNat ∧ s.params.hdrBytes ≤ (s.outFile m).len.toNat ∧
      (s.outFile m).len.toNat ≤ s.params.outCap := by
    rw [hlen]
    exact ⟨Memory.covers_ofFn _ _, by omega, by omega⟩
  exact { hs with out_ok := fun _ ho => Option.some_inj.1 ho ▸ hout }

/-- FRAME as FrameDecode builds it is as long as its length byte says. -/
theorem State.Inv.withFrame {s : State} (hs : s.Inv) (len : Byte) (p : Nat → Byte) (n : Word64) :
    State.Inv { s with frame := some (frameDecode len p), byteIndex := n } :=
  { hs with
    frame_ok := fun f hf => by
      obtain rfl := Option.some_inj.1 hf
      rw [State.frameLenOf, State.byteOf_frameDecode_zero]
      exact frameDecode_covers len p }

theorem State.Inv.encode {s t : State} (hs : s.Inv) (h : encodeBody s = .ok t) : t.Inv := by
  rcases encodeBody_cases s with ⟨-, e⟩ | ⟨-, e⟩ <;> rw [e] at h <;> cases h
  exact hs.withFrame _ _ s.byteIndex

theorem State.Inv.extract {s t : State} (hs : s.Inv) (h : extractBody s = .ok t) : t.Inv := by
  rcases extractBody_cases s with ⟨-, e⟩ | ⟨-, -, e⟩ | ⟨-, -, e⟩ <;> rw [e] at h <;> cases h
  exact hs.withFrame _ _ _

/-- A frame that fits below BUF_LEN is written below BUF_CAP. -/
theorem State.Inv.embedded_within {s : State} (hs : s.Inv) {f : Memory}
    (hfits : requiredBits (s.frameLenOf f).toNat ≤ s.bufLen.toNat) : (s.embedded f).within s.params.bufCap := by
  refine embedLoop_within hs.buf_within ?_
  have hbuf := hs.bufLen_le
  rw [requiredBits] at hfits
  rw [frameBits_length]
  omega

theorem State.Inv.embed {s t : State} (hs : s.Inv) (h : embedBody s = .ok t) : t.Inv := by
  rcases embedBody_cases s with ⟨-, e⟩ | ⟨_, -, -, e⟩ | ⟨f, -, hfits, e⟩ <;> rw [e] at h <;> cases h
  exact { hs with buf_within := hs.embedded_within hfits }

theorem State.Inv.body {i : Instr} {s t : State} (hs : s.Inv) (h : body i s = .ok t) : t.Inv := by
  cases i with
  | parse => exact hs.parse h
  | dsize => exact hs.dsize h
  | load => exact hs.load h
  | store => exact hs.store h
  | encode => exact hs.encode h
  | embed => exact hs.embed h
  | extract => exact hs.extract h

theorem body_ok_params {i : Instr} {s t : State} (h : body i s = .ok t) : t.params = s.params := by
  rw [(body_ok_outColumn h).1]
  cases i <;> rfl

theorem issue_keeps_inv {c : Byte} {s t : State} (hs : s.Inv) (h : issue c s = .next t) :
    t.Inv ∧ t.params = s.params := by
  rcases issue_cases h with ⟨-, rfl⟩ | ⟨-, e, rfl⟩ | ⟨-, i, -, hb⟩
  · exact ⟨hs, rfl⟩
  · exact ⟨hs.raise e, rfl⟩
  · exact ⟨hs.body hb, body_ok_params hb⟩

/-! ### The host actions and the step -/

theorem act_keeps_inv {a : HostAction} {s t : State} (hs : s.Inv) (h : act a s = .next t) :
    t.Inv ∧ t.params = s.params := by
  rcases act_cases h with ⟨rs, k, rfl, -⟩ | ⟨v, hv, hcap, rfl, -⟩ | ⟨v, hv, hcap, rfl, -⟩ | ⟨n, rfl, -⟩ |
    ⟨i, b, hi, rfl, -⟩ | ⟨i, b, hi, rfl, -⟩ | ⟨i, b, hi, rfl, -⟩ | ⟨-, rfl⟩ | ⟨c, hissue, -⟩
  · exact ⟨hs.withReplies rs k, rfl⟩
  · exact ⟨hs.withFileLen (by rwa [BitVec.toNat_ofNat, Nat.mod_eq_of_lt hv]), rfl⟩
  · exact ⟨hs.setBufLen (by rwa [BitVec.toNat_ofNat, Nat.mod_eq_of_lt hv]), rfl⟩
  · exact ⟨hs.withPayloadLen n, rfl⟩
  · exact ⟨hs.writeFile hi b, rfl⟩
  · exact ⟨hs.writeBuf hi b, rfl⟩
  · exact ⟨hs.writeMsg hi b, rfl⟩
  · exact ⟨hs.resetEvent, rfl⟩
  · exact issue_keeps_inv hs hissue

/-- Settles O16: a step stays, or performs the host's next action (`act_keeps_inv`). -/
theorem everyStepKeepsTheInvariant : Obligations.EveryStepKeepsTheInvariant := by
  intro s t hs h
  rcases step_cases h with ⟨-, rfl⟩ | ⟨a, rest, -, hact⟩
  · exact ⟨hs, rfl⟩
  · exact act_keeps_inv (s := { s with pending := rest }) (hs.withPending rest) hact

end Sys2Proof.Machine
end

section
/-! What a command that raises leaves as it was (60_exceptions.md R221), and which codes it can leave in ERR (R212). -/

namespace Sys2Proof.Machine

/-- A command that enters a fault is a test that answered. -/
theorem exec_faulted {i : Instr} {s t : State} (hs : s.fault = false) (h : exec i s = .next t) (ht : t.fault = true) :
    ∃ e, body i s = .error e ∧ t = s.raise e := by
  rcases exec_cases h with ⟨hf, -⟩ | ⟨-, hok⟩ | ⟨-, e, he, rfl⟩
  · simp [hs] at hf
  · simp [body_ok_fault hok hs] at ht
  · exact ⟨e, he, rfl⟩

theorem State.regValue_raise (s : State) (e : ErrorKind) {r : Reg} (hr : r ≠ .status) :
    (s.raise e).regValue r = s.regValue r := by
  cases r with
  | status => exact absurd rfl hr
  | _ => rfl

@[simp] theorem State.byteAt_raise (s : State) (e : ErrorKind) (sp : Space) (a : Nat) :
    (s.raise e).byteAt sp a = s.byteAt sp a :=
  State.byteAt_congr (by cases sp <;> rfl) rfl a

/-- Settles O7: the state is `s.raise e`, whose code is not 0x00 (`ErrorKind.code_ne_zero`). -/
theorem faultEntryChangesOnlyFaultAndErr : Obligations.FaultEntryChangesOnlyFaultAndErr := by
  intro i s t hs h ht
  obtain ⟨e, -, rfl⟩ := exec_faulted hs h ht
  exact ⟨e.code_ne_zero, rfl, fun _ => s.regValue_raise e, s.byteAt_raise e⟩

/-! ### Each command's own codes; PARSE's are `parseBody_error_code` -/

theorem dsizeBody_error_code {s : State} {e : ErrorKind} (h : dsizeBody s = .error e) :
    e.code ∈ ([0xE1, 0xE2] : List Byte) := by
  rcases dsizeBody_cases s with ⟨-, k⟩ | ⟨_, -, -, k⟩ | ⟨_, _, -, -, -, k⟩ <;> rw [k] at h <;> cases h <;> decide

theorem loadBody_error_code {s : State} {e : ErrorKind} (h : loadBody s = .error e) :
    e.code ∈ ([0xE1, 0xE2, 0x20] : List Byte) := by
  rcases loadBody_cases s with ⟨-, k⟩ | ⟨_, -, -, k⟩ | ⟨_, _, -, -, -, -, k⟩ | ⟨_, _, -, -, -, -, k⟩ <;>
    rw [k] at h <;> cases h <;> decide

theorem storeBody_error_code {s : State} {e : ErrorKind} (h : storeBody s = .error e) :
    e.code ∈ ([0xE1] : List Byte) := by
  rcases storeBody_cases s with ⟨-, k⟩ | ⟨_, -, k⟩ <;> rw [k] at h <;> cases h
  decide

theorem encodeBody_error_code {s : State} {e : ErrorKind} (h : encodeBody s = .error e) :
    e.code ∈ ([0x30] : List Byte) := by
  rcases encodeBody_cases s with ⟨-, k⟩ | ⟨-, k⟩ <;> rw [k] at h <;> cases h
  decide

theorem embedBody_error_code {s : State} {e : ErrorKind} (h : embedBody s = .error e) :
    e.code ∈ ([0xE1, 0x40] : List Byte) := by
  rcases embedBody_cases s with ⟨-, k⟩ | ⟨_, -, -, k⟩ | ⟨_, -, -, k⟩ <;> rw [k] at h <;> cases h <;> decide

theorem extractBody_error_code {s : State} {e : ErrorKind} (h : extractBody s = .error e) :
    e.code ∈ ([0x31, 0x32] : List Byte) := by
  rcases extractBody_cases s with ⟨-, k⟩ | ⟨-, -, k⟩ | ⟨-, -, k⟩ <;> rw [k] at h <;> cases h <;> decide

/-- Settles O8: the error is one of the command's own tests', command by command. -/
theorem eachCommandRaisesOnlyItsOwnCodes : Obligations.EachCommandRaisesOnlyItsOwnCodes := by
  intro i s t hs h ht
  obtain ⟨e, he, rfl⟩ := exec_faulted hs h ht
  cases i with
  | parse => exact parseBody_error_code he
  | dsize => exact dsizeBody_error_code he
  | load => exact loadBody_error_code he
  | store => exact storeBody_error_code he
  | encode => exact encodeBody_error_code he
  | embed => exact embedBody_error_code he
  | extract => exact extractBody_error_code he

end Sys2Proof.Machine
end

section
/-! The flags: the table of what sets and clears each (10_state.md R36), and where STATUS shows them (R43, R44). -/

namespace Sys2Proof.Machine

/-! ### STATUS -/

theorem statusBit_getLsbD (b : Bool) {n i : Nat} (hi : i < 16) :
    (statusBit b n).getLsbD i = (decide (i = n) && b) := by
  rw [statusBit, BitVec.getLsbD_shiftLeft, BitVec.getLsbD_setWidth, BitVec.getLsbD_ofBool]
  by_cases hn : i = n
  · subst hn
    simp [hi]
  · by_cases hlt : i < n
    · simp [hn, hlt]
    · have hsub : i - n ≠ 0 := by omega
      simp [hn, hsub]

/-- A bit of STATUS is a flag's below 8 and ERR's from 8 on (10_state.md R43). -/
theorem State.status_getLsbD (s : State) {i : Nat} (hi : i < 16) :
    s.status.getLsbD i = (decide (i = 0) && s.fault || decide (i = 1) && s.hdrValid || decide (i = 2) && s.sizeValid ||
      decide (i = 3) && s.frameValid || decide (i = 4) && s.outValid || !decide (i < 8) && s.err.getLsbD (i - 8)) := by
  have herr : (s.err.setWidth 16 <<< 8).getLsbD i = (!decide (i < 8) && s.err.getLsbD (i - 8)) := by
    rw [BitVec.getLsbD_shiftLeft, BitVec.getLsbD_setWidth, decide_eq_true hi, decide_eq_true (by omega : i - 8 < 16),
      Bool.true_and, Bool.true_and]
  simp only [State.status, BitVec.getLsbD_or, statusBit_getLsbD _ hi, herr]

theorem State.status_extract_err (s : State) : s.status.extractLsb' 8 8 = s.err := by
  apply BitVec.eq_of_getLsbD_eq
  intro i hi
  have h1 : 8 + i ≠ 1 := by omega
  have h2 : 8 + i ≠ 2 := by omega
  have h3 : 8 + i ≠ 3 := by omega
  have h4 : 8 + i ≠ 4 := by omega
  rw [BitVec.getLsbD_extractLsb', s.status_getLsbD (by omega)]
  simp [hi, h1, h2, h3, h4]

theorem State.err_eq_zero_iff (s : State) : s.err = 0x00 ↔ s.fault = false := by
  refine ⟨fun h => ?_, State.err_eq_zero⟩
  cases he : s.error with
  | none => exact State.fault_eq_false.2 he
  | some e =>
    rw [State.err, he] at h
    exact absurd h e.code_ne_zero

/-- Settles O12: the bits are `State.status_getLsbD`; STATUS is no register the host may write. -/
theorem statusFieldsAndErr : Obligations.StatusFieldsAndErr := by
  intro s
  have hbits := fun (i : Nat) (hi : i < 16) => s.status_getLsbD hi
  refine ⟨rfl, fun _ => rfl, ?_, ?_, ?_, ?_, ?_, ?_, ?_, ?_, s.status_extract_err, s.err_eq_zero_iff⟩
  · exact (hbits 0 (by omega)).trans (by simp)
  · exact (hbits 1 (by omega)).trans (by simp)
  · exact (hbits 2 (by omega)).trans (by simp)
  · exact (hbits 3 (by omega)).trans (by simp)
  · exact (hbits 4 (by omega)).trans (by simp)
  · exact (hbits 5 (by omega)).trans (by simp)
  · exact (hbits 6 (by omega)).trans (by simp)
  · exact (hbits 7 (by omega)).trans (by simp)

/-! ### What one step does to the flags -/

/-- The four flags that guard results (10_state.md R38 to R41). -/
structure ResultFlags where
  hdr : Bool
  size : Bool
  frame : Bool
  out : Bool

def State.resultFlags (s : State) : ResultFlags := ⟨s.hdrValid, s.sizeValid, s.frameValid, s.outValid⟩

theorem State.flags_of_resultFlags {s : State} {f : ResultFlags} (h : s.resultFlags = f) :
    s.hdrValid = f.hdr ∧ s.sizeValid = f.size ∧ s.frameValid = f.frame ∧ s.outValid = f.out := by
  subst h
  exact ⟨rfl, rfl, rfl, rfl⟩

/-- The flags after a command that succeeded: PARSE gives the header and takes the sizes, the others give their own
result (10_state.md R36). -/
def ResultFlags.after (f : ResultFlags) (i : Instr) : ResultFlags where
  hdr := f.hdr || decide (i = .parse)
  size := !(decide (i = .parse)) && (f.size || decide (i = .dsize) || decide (i = .load))
  frame := f.frame || decide (i = .encode) || decide (i = .extract)
  out := f.out || decide (i = .store)

theorem body_ok_resultFlags {i : Instr} {s t : State} (h : body i s = .ok t) :
    t.resultFlags = s.resultFlags.after i := by
  obtain ⟨-, hhdr, hsize, hframe, hout⟩ := body_ok_flags h
  simp only [State.resultFlags, ResultFlags.after, hhdr, hsize, hframe, hout]

/-- Everything a step can do to the flags (10_state.md R36). -/
inductive FlagStep (s t : State) : Prop where
  | kept (fault : t.fault = s.fault) (results : t.resultFlags = s.resultFlags)
  | reset (next : s.nextIsReset = true) (results : t.resultFlags = ⟨false, false, false, false⟩)
      (fault : t.fault = false)
  | raised (next : s.nextByte ≠ none) (old : s.fault = false) (fault : t.fault = true)
      (results : t.resultFlags = s.resultFlags)
  | succeeded (i : Instr) (next : s.nextCommand = some i) (old : s.fault = false) (fault : t.fault = false)
      (results : t.resultFlags = s.resultFlags.after i)

theorem State.nextCommand_of_decode {s : State} {c : Byte} {i : Instr} (hs : s.fault = false)
    (hnext : s.nextByte = some c) (hd : decode c = .ok i) : s.nextCommand = some i := by
  simp [State.nextCommand, hs, hnext, hd]

/-- Both ways of issuing a byte are seen by `State.nextByte`. -/
theorem State.nextByte_of_issue {s : State} {a : HostAction} {rest : List HostAction} {c : Byte}
    (hp : s.pending = a :: rest)
    (ha : a = .issue c ∨ ∃ v, v < 256 ∧ a = .writeReg Reg.cmd.number v ∧ c = BitVec.ofNat 8 v) :
    s.nextByte = some c := by
  rcases ha with rfl | ⟨v, hv, rfl, rfl⟩
  · simp only [State.nextByte, hp]
  · simp only [State.nextByte, hp, hv, and_self, if_true]

theorem step_flagStep {s t : State} (h : step s = .next t) : FlagStep s t := by
  rcases step_cases h with ⟨-, rfl⟩ | ⟨a, rest, hp, hact⟩
  · exact .kept rfl rfl
  · rcases act_cases hact with ⟨_, _, rfl, -⟩ | ⟨_, -, -, rfl, -⟩ | ⟨_, -, -, rfl, -⟩ | ⟨_, rfl, -⟩ |
      ⟨_, _, -, rfl, -⟩ | ⟨_, _, -, rfl, -⟩ | ⟨_, _, -, rfl, -⟩ | ⟨rfl, rfl⟩ | ⟨c, hissue, hc⟩
    any_goals exact .kept rfl rfl
    · exact .reset (by simp only [State.nextIsReset, hp]) rfl rfl
    · have hnext := State.nextByte_of_issue hp hc
      rcases issue_cases hissue with ⟨-, rfl⟩ | ⟨hs, e, rfl⟩ | ⟨hs, i, hd, hok⟩
      · exact .kept rfl rfl
      · exact .raised (by simp [hnext]) hs rfl rfl
      · exact .succeeded i (State.nextCommand_of_decode hs hnext hd) hs (body_ok_fault hok hs)
          (body_ok_resultFlags (s := { s with pending := rest }) hok)

/-- Settles O11: the table read off the four cases of `step_flagStep`; for a command that succeeded, command by
command. -/
theorem flagsChangeOnlyAsTheTableSays : Obligations.FlagsChangeOnlyAsTheTableSays := by
  intro s t h
  cases step_flagStep h with
  | kept fault results =>
    obtain ⟨hhdr, hsize, hframe, hout⟩ := State.flags_of_resultFlags results
    simp_all [State.resultFlags]
  | reset next results fault =>
    obtain ⟨hhdr, hsize, hframe, hout⟩ := State.flags_of_resultFlags results
    simp_all [State.resultFlags]
  | raised next old fault results =>
    obtain ⟨hhdr, hsize, hframe, hout⟩ := State.flags_of_resultFlags results
    simp_all [State.resultFlags]
  | succeeded i next old fault results =>
    obtain ⟨hhdr, hsize, hframe, hout⟩ := State.flags_of_resultFlags results
    cases i <;> simp_all [State.resultFlags, ResultFlags.after]

end Sys2Proof.Machine
end

section
/-! The out column: what each command can change, down to the bits of BUF (30_encoding.md R93). -/

namespace Sys2Proof.Machine

theorem outColumn_self (i : Instr) (s : State) : outColumn i s s = s := by cases i <;> rfl

theorem outColumn_raise (i : Instr) (s : State) (e : ErrorKind) : outColumn i s (s.raise e) = s.raise e := by
  cases i <;> rfl

theorem exec_outColumn {i : Instr} {s t : State} (h : exec i s = .next t) : t = outColumn i s t := by
  rcases exec_cases h with ⟨-, rfl⟩ | ⟨-, hok⟩ | ⟨-, e, -, rfl⟩
  · exact (outColumn_self i t).symm
  · exact (body_ok_outColumn hok).1
  · exact (outColumn_raise i s e).symm

/-- FILE and MSG are in no command's out column. -/
theorem exec_byteAt_file_msg {i : Instr} {s t : State} (h : exec i s = .next t) {sp : Space}
    (hsp : sp = .file ∨ sp = .msg) (a : Nat) : t.byteAt sp a = s.byteAt sp a := by
  rw [exec_outColumn h]
  rcases hsp with rfl | rfl
  · cases i <;> rfl
  · cases i <;> rfl

/-- BUF is in the out column of LOAD and EMBED alone. -/
theorem exec_bufByte {i : Instr} (hload : i ≠ .load) (hembed : i ≠ .embed) {s t : State} (h : exec i s = .next t)
    (j : Nat) : t.bufByte j = s.bufByte j := by
  rw [exec_outColumn h]
  cases i with
  | load => exact absurd rfl hload
  | embed => exact absurd rfl hembed
  | parse | dsize | store | encode | extract => rfl

/-- A carrier byte keeps all bits but bit 0. -/
theorem carrier_and_not_one (x f : Byte) (k : Nat) :
    ((x &&& 0xFE) ||| ((f >>> k) &&& 1)) &&& ~~~0x01 = x &&& ~~~0x01 := by
  apply BitVec.eq_of_getLsbD_eq
  intro i hi
  rw [BitVec.getLsbD_and, BitVec.getLsbD_and, carrier_getLsbD]
  by_cases h0 : i = 0
  · simp [h0]
  · rw [if_neg h0]

/-- EMBED keeps every bit of BUF outside its mask (44_lsb_codec.md R179, R180). -/
theorem exec_embed_and_not_outMask {s t : State} (h : exec .embed s = .next t) (j : Nat) :
    t.bufByte j &&& ~~~(outMask .embed s j) = s.bufByte j &&& ~~~(outMask .embed s j) := by
  rcases exec_cases h with ⟨-, rfl⟩ | ⟨hs, hok⟩ | ⟨-, e, -, rfl⟩
  · rfl
  · obtain ⟨f, hf, -, rfl⟩ := exec_embed_nofault hs h (body_ok_fault hok hs)
    simp only [outMask, hf]
    have hread : (s.afterEmbed f).bufByte j = _ := s.embedded_read f j
    change (s.afterEmbed f).bufByte j &&& _ = _
    split
    next hj => rw [hread, if_pos hj, carrier_and_not_one]
    next hj => rw [hread, if_neg hj]
  · rfl

/-- Settles O17: `exec_outColumn`; the mask of EMBED, LOAD's mask of every bit, and the commands that leave BUF
alone. -/
theorem commandsWriteOnlyTheirOutColumn : Obligations.CommandsWriteOnlyTheirOutColumn := by
  intro i s t h
  refine ⟨exec_outColumn h, fun j => ?_, fun _ a hsp => exec_byteAt_file_msg h hsp a, fun ht => ?_⟩
  · by_cases hload : i = .load
    · subst hload
      have hmask : ~~~(outMask .load s j) = 0#8 := by simp [outMask]
      rw [hmask, BitVec.and_zero, BitVec.and_zero]
    · by_cases hembed : i = .embed
      · subst hembed
        exact exec_embed_and_not_outMask h j
      · rw [exec_bufByte hload hembed h]
  · rcases exec_cases h with ⟨-, rfl⟩ | ⟨hs, hok⟩ | ⟨-, e, -, rfl⟩
    · rfl
    · simp [body_ok_fault hok hs] at ht
    · rfl

end Sys2Proof.Machine
end

section
/-! Reset, at any point of a run (70_reset_and_hazards.md R250), and the commands right after it (R254). -/

namespace Sys2Proof.Machine

theorem State.status_resetEvent (s : State) : s.resetEvent.status = 0x0000 := by
  change State.reset.status = 0x0000
  decide

/-- Settles O13: the step is `State.resetEvent`, in which every guarded register and memory is absent. -/
theorem resetClearsTheBlock : Obligations.ResetClearsTheBlock := by
  intro s rest hp
  refine ⟨_, step_act hp, State.status_resetEvent _, rfl, rfl, rfl, rfl, fun r hr => ?_, fun sp hsp a => ?_,
    rfl, rfl, rfl⟩
  · fin_cases hr <;> rfl
  · fin_cases hsp <;> rfl

theorem State.status_encoded_resetOf (p : Params) : (State.resetOf p).encoded.status = 0x0008 := by
  change State.reset.encoded.status = 0x0008
  decide

theorem exec_encode_resetOf (p : Params) : exec .encode (State.resetOf p) = .next (State.resetOf p).encoded :=
  exec_encode rfl (Nat.zero_le _)

/-- Settles O14: PARSE fails its length test because 0 < HDR_BYTES, the stages are missing, BUF_LEN is 0, and the payload
is empty. -/
theorem commandsRightAfterReset : Obligations.CommandsRightAfterReset := by
  intro p hp
  have hshort : ¬ (State.resetOf p).params.hdrBytes ≤ (State.resetOf p).fileLen.toNat := by
    have hlen : (State.resetOf p).fileLen.toNat = 0 := rfl
    have h38 : 38 ≤ (State.resetOf p).params.hdrBytes := hp.1
    omega
  refine ⟨(exec_eq_raise_iff rfl).2 ((parseBody_eq_error_iff _).1.2 hshort), fun i hi => ?_,
    (exec_extract_bufferTooSmall_iff rfl).2 (Nat.zero_lt_succ 7), ?_⟩
  · fin_cases hi <;> rfl
  · exact ⟨_, exec_encode_resetOf p, State.status_encoded_resetOf p, rfl, rfl, rfl⟩

end Sys2Proof.Machine
end

section
/-! PARSE's outcome depends on the bytes it validates alone (41_header_parse.md R119). -/

namespace Sys2Proof.Machine

/-- ERR after a PARSE from a fault-free state: the code of the first test that fails (41_header_parse.md R117);
`exec_parse_err` ties it to PARSE. -/
def State.parseErr (s : State) : Byte :=
  if s.fileLen.toNat < s.params.hdrBytes then 0x10
  else if magicField s.fileByte ≠ magicBM then 0x11
  else if bitsPerPixelField s.fileByte ≠ bppRequired then 0x12
  else if compressionField s.fileByte ≠ compressionRequired then 0x13
  else 0x00

theorem exec_parse_err {s t : State} (hs : s.fault = false) (h : exec .parse s = .next t) : t.err = s.parseErr := by
  rw [exec_eq_command] at h
  change command s (parseBody s) = _ at h
  rcases parseBody_cases s with ⟨hshort, e⟩ | ⟨hlong, hmagic, e⟩ | ⟨hlong, hmagic, hdepth, e⟩ |
    ⟨hlong, hmagic, hdepth, hcomp, e⟩ | ⟨hlong, hmagic, hdepth, hcomp, e⟩
  · cases (command_error hs e).symm.trans h
    simp [State.parseErr, hshort, ErrorKind.code]
  · cases (command_error hs e).symm.trans h
    simp [State.parseErr, Nat.not_lt.2 hlong, hmagic, ErrorKind.code]
  · cases (command_error hs e).symm.trans h
    simp [State.parseErr, Nat.not_lt.2 hlong, hmagic, hdepth, ErrorKind.code]
  · cases (command_error hs e).symm.trans h
    simp [State.parseErr, Nat.not_lt.2 hlong, hmagic, hdepth, hcomp, ErrorKind.code]
  · cases (command_ok hs e).symm.trans h
    change s.err = _
    rw [State.err_eq_zero hs]
    simp [State.parseErr, Nat.not_lt.2 hlong, hmagic, hdepth, hcomp]

/-- Settles O20: `State.parseErr` reads the length through one test and the file through the three validated fields. -/
theorem parseOutcomeIgnoresUncheckedBytes : Obligations.ParseOutcomeIgnoresUncheckedBytes := by
  intro s s' t t' hs hs' hparams hlong hbytes h h'
  simp only [List.forall_mem_cons, List.not_mem_nil, false_implies, implies_true, and_true] at hbytes
  obtain ⟨b0, b1, b28, b29, b30, b31, b32, b33⟩ := hbytes
  have hmagic : magicField s'.fileByte = magicField s.fileByte := by simp only [magicField, le16, b0, b1]
  have hdepth : bitsPerPixelField s'.fileByte = bitsPerPixelField s.fileByte := by
    simp only [bitsPerPixelField, le16, b28, b29]
  have hcomp : compressionField s'.fileByte = compressionField s.fileByte := by
    simp only [compressionField, le32, b30, b31, b32, b33]
  have hshort : s'.fileLen.toNat < s.params.hdrBytes ↔ s.fileLen.toNat < s.params.hdrBytes := by omega
  rw [exec_parse_err hs h, exec_parse_err hs' h']
  simp only [State.parseErr, hparams, hmagic, hdepth, hcomp, hshort]

end Sys2Proof.Machine
end

section
/-! The stride (42_pixel_buffer.md R135), and LOAD: the file too short for its raster (R142), and the raster copied
(R143). -/

namespace Sys2Proof.Machine

theorem exec_dsize_nofault {s t : State} (hs : s.fault = false) (h : exec .dsize s = .next t) (ht : t.fault = false) :
    ∃ m z, s.hdrRaw = some m ∧ s.headerSizes m = .ok z ∧ t = { s with sizes := some z } := by
  have hok : dsizeBody s = .ok t := exec_nofault hs h ht
  rcases dsizeBody_cases s with ⟨-, e⟩ | ⟨_, -, -, e⟩ | ⟨m, z, hm, -, hz, e⟩ <;> rw [e] at hok <;> cases hok
  exact ⟨m, z, hm, hz, rfl⟩

/-- Settles O23: the register holds `rowStride w`, whose facts are `rowStride_facts`. -/
theorem strideIsTheLeastMultipleOfFour : Obligations.StrideIsTheLeastMultipleOfFour := by
  intro s t w r hs hw h ht hr
  obtain ⟨m, z, hm, hz, rfl⟩ := exec_dsize_nofault hs h ht
  obtain ⟨_, hm', rfl⟩ := State.headerReg_eq_some hw
  cases hm.symm.trans hm'
  have hr : (z.rowStride.toNat : Int) = r := Option.some_inj.1 hr
  rcases s.headerSizes_cases m with ⟨-, hz'⟩ | ⟨_, hw0, hz', hstride, -, -⟩ <;> cases hz.symm.trans hz'
  rw [hstride] at hr
  obtain ⟨hfour, hge, hlt, hpad⟩ := rowStride_facts (widthPxField (s.byteOf .hdrRaw m)).toNat
  generalize widthPxField (s.byteOf .hdrRaw m) = w at *
  subst hr
  refine ⟨by omega, by omega, fun k hk hle => by omega, by omega, fun h0 => ?_⟩
  subst h0
  rfl

theorem State.pixelDataOffset_eq_some {s : State} {m : Memory} {off : Int} (hm : s.hdrRaw = some m)
    (h : s.regValue .pixelDataOffset = some off) : (pixelDataOffsetField (s.byteOf .hdrRaw m) : Int) = off := by
  obtain ⟨_, hm', hoff⟩ := State.headerReg_eq_some (field := fun rd => (pixelDataOffsetField rd : Int)) h
  cases hm.symm.trans hm'
  exact hoff

/-- LOAD's own test, once the header has sizes (42_pixel_buffer.md R141, R142). -/
theorem exec_load_shortRead_iff {s : State} {m : Memory} {z : Sizes} (hs : s.fault = false) (hm : s.hdrRaw = some m)
    (hz : s.headerSizes m = .ok z) :
    exec .load s = .next (s.raise .ioShortRead) ↔
      s.fileLen.toNat - pixelDataOffsetField (s.byteOf .hdrRaw m) < z.dataSize.toNat := by
  refine (exec_eq_raise_iff hs).trans ?_
  change loadBody s = _ ↔ _
  by_cases hshort : s.fileLen.toNat - pixelDataOffsetField (s.byteOf .hdrRaw m) < z.dataSize.toNat
  · exact iff_of_true (by simp only [loadBody, hm, hz, hshort, if_true]) hshort
  · exact iff_of_false (by simp [loadBody, hm, hz, hshort]) hshort

/-- Settles O24: LOAD's one test, over the integers. -/
theorem loadShortReadExactly : Obligations.LoadShortReadExactly := by
  intro s w h off hs hw hh hoff hw0
  obtain ⟨m, z, hm, hz, -, -, hsize⟩ := State.headerSizes_exact hw hh hw0
  obtain rfl := State.pixelDataOffset_eq_some hm hoff
  rw [exec_load_shortRead_iff hs hm hz, ← hsize]
  exact ⟨by omega, by omega, rfl, fun _ => rfl⟩

/-! ### The state a successful LOAD leaves -/

/-- The state a successful LOAD leaves for the header `m` of sizes `z`. -/
def State.loaded (s : State) (m : Memory) (z : Sizes) : State :=
  s.replaceBuf z (fun i => s.fileByte (pixelDataOffsetField (s.byteOf .hdrRaw m) + i))

theorem exec_load {s : State} {m : Memory} {z : Sizes} (hs : s.fault = false) (hm : s.hdrRaw = some m)
    (hz : s.headerSizes m = .ok z)
    (hfits : z.dataSize.toNat ≤ s.fileLen.toNat - pixelDataOffsetField (s.byteOf .hdrRaw m)) :
    exec .load s = .next (s.loaded m z) :=
  command_ok hs (show loadBody s = _ by simp only [loadBody, hm, hz, Nat.not_lt.2 hfits, if_false, State.loaded])

theorem State.bufByte_loaded (s : State) (m : Memory) {z : Sizes} {i : Nat} (hi : i < z.dataSize.toNat) :
    (s.loaded m z).bufByte i = s.fileByte (pixelDataOffsetField (s.byteOf .hdrRaw m) + i) :=
  State.byteOf_ofFn _ hi

theorem State.byteAt_loaded_ne (s : State) (m : Memory) (z : Sizes) {sp : Space} (h : sp ≠ .buf) (a : Nat) :
    (s.loaded m z).byteAt sp a = s.byteAt sp a := by
  cases sp with
  | buf => exact absurd rfl h
  | file | hdrRaw | msg | frame | out => rfl

/-- The data size is a multiple of 4, because the stride is. -/
theorem State.four_dvd_dataSize {s : State} {m : Memory} {z : Sizes} (hz : s.headerSizes m = .ok z) :
    4 ∣ z.dataSize.toNat := by
  rcases s.headerSizes_cases m with ⟨-, hz'⟩ | ⟨_, -, hz', hstride, -, hsize⟩ <;> cases hz.symm.trans hz'
  rw [hsize, hstride]
  exact Dvd.dvd.mul_right (rowStride_facts _).1 _

/-- Settles O25: the state is `s.loaded m z`. -/
theorem loadCopiesTheRaster : Obligations.LoadCopiesTheRaster := by
  intro s w h off hs hw hh hoff hw0 henough
  obtain ⟨m, z, hm, hz, hstride, habs, hsize⟩ := State.headerSizes_exact hw hh hw0
  obtain rfl := State.pixelDataOffset_eq_some hm hoff
  rw [← hsize] at henough
  exact ⟨s.loaded m z, exec_load hs hm hz (by omega), hs, rfl, congrArg some hsize,
    fun _ => s.bufByte_loaded m, congrArg some hstride, congrArg some habs, congrArg some hsize,
    State.four_dvd_dataSize hz, rfl, fun _ a hsp => s.byteAt_loaded_ne m z hsp a⟩

end Sys2Proof.Machine
end

section
/-! The codec, command by command: ENCODE and EXTRACT build one frame format (43_message_frame.md R167), EMBED in closed
form (44_lsb_codec.md R180, R195 (c)), and what EXTRACT depends on (R195 (d), (e)). -/

namespace Sys2Proof.Machine

/-! ### ENCODE and EXTRACT -/

theorem exec_encode_nofault {s t : State} (hs : s.fault = false) (h : exec .encode s = .next t) (ht : t.fault = false) :
    s.payloadLen.toNat ≤ 255 ∧ t = s.encoded := by
  have hok : encodeBody s = .ok t := exec_nofault hs h ht
  rcases encodeBody_cases s with ⟨-, e⟩ | ⟨hlen, e⟩ <;> rw [e] at hok <;> cases hok
  exact ⟨hlen, rfl⟩

/-- Settles O29: both frames are FrameDecode of one length byte and one payload. -/
theorem encodeAndExtractBuildTheSameFrame : Obligations.EncodeAndExtractBuildTheSameFrame := by
  intro s t s' t' hs hs' h h' ht ht' hlen hpayload
  obtain ⟨hsmall, rfl⟩ := exec_encode_nofault hs h ht
  obtain ⟨-, -, rfl⟩ : _ ∧ _ ∧ t' = s'.afterExtract := exec_extract_nofault hs' h' ht'
  have hframeLen : (lsbByte s'.bufByte 0).toNat = s.payloadLen.toNat := by
    rw [s'.regValue_frameLen_afterExtract] at hlen
    have hlen := Int.ofNat_inj.1 (Option.some_inj.1 hlen)
    rw [← hlen]
    exact State.frameLenOf_encoded_toNat hsmall
  have hbyte : lsbByte s'.bufByte 0 = BitVec.ofNat 8 s.payloadLen.toNat := by
    rw [← hframeLen, BitVec.ofNat_toNat, BitVec.setWidth_eq]
  have hbytes : ∀ k < (lsbByte s'.bufByte 0).toNat, lsbByte s'.bufByte (8 + 8 * k) = s.msgByte k := by
    intro k hk
    have hk' := hpayload k (hframeLen ▸ hk)
    rw [s'.byteAt_afterExtract_frame (by omega), Nat.mul_add, Nat.mul_one] at hk'
    exact Option.some_inj.1 hk'
  change some (frameDecode _ _) = some (frameDecode _ _)
  rw [frameDecode_congr hbytes, hbyte]

/-! ### EMBED -/

theorem State.bufByte_afterEmbed_of_lt (s : State) (f : Memory) {j : Nat}
    (hj : j < requiredBits (s.frameLenOf f).toNat) :
    (s.afterEmbed f).bufByte j = (s.bufByte j &&& 0xFE) ||| ((s.byteOf .frame f (j / 8) >>> (j % 8)) &&& 1) :=
  (s.embedded_read f j).trans (if_pos hj)

theorem State.byteAt_afterEmbed_ne (s : State) (f : Memory) {sp : Space} (h : sp ≠ .buf) (a : Nat) :
    (s.afterEmbed f).byteAt sp a = s.byteAt sp a := by
  cases sp with
  | buf => exact absurd rfl h
  | file | hdrRaw | msg | frame | out => rfl

/-- Settles O31: the state is `s.afterEmbed m` for the frame's memory `m`. -/
theorem embedClosedForm : Obligations.EmbedClosedForm := by
  intro s len f hs hlen hf hfits
  obtain ⟨m, hm, hmlen⟩ := State.frameLen_eq_some hlen
  obtain rfl : (s.frameLenOf m).toNat = len := Int.ofNat_inj.1 hmlen
  have hbytes : ∀ k ≤ (s.frameLenOf m).toNat, s.byteOf .frame m k = f k := by
    intro k hk
    have hk := hf k hk
    rw [State.byteAt_frame hm] at hk
    exact Option.some_inj.1 hk
  refine ⟨s.afterEmbed m, exec_embed hs hm hfits, hs, fun j hj => ?_, fun _ => s.bufByte_afterEmbed_of_ge m,
    State.regValue_byteIndex_of_requiredBits rfl, rfl, fun _ a hsp => s.byteAt_afterEmbed_ne m hsp a⟩
  rw [s.bufByte_afterEmbed_of_lt m hj, hbytes _ (by omega)]

/-- EMBED keeps bits 7 to 1 of every byte of BUF (44_lsb_codec.md R179). -/
theorem exec_embed_getLsbD {s t : State} (h : exec .embed s = .next t) (j : Nat) {i : Nat} (hi : 1 ≤ i) :
    (t.bufByte j).getLsbD i = (s.bufByte j).getLsbD i := by
  rcases exec_cases h with ⟨-, rfl⟩ | ⟨hs, hok⟩ | ⟨-, e, -, rfl⟩
  · rfl
  · obtain ⟨f, -, -, rfl⟩ := exec_embed_nofault hs h (body_ok_fault hok hs)
    change ((s.afterEmbed f).bufByte j).getLsbD i = _
    by_cases hj : j < requiredBits (s.frameLenOf f).toNat
    · rw [s.bufByte_afterEmbed_of_lt f hj, carrier_getLsbD, if_neg (by omega)]
    · rw [s.bufByte_afterEmbed_of_ge f (by omega)]
  · rfl

/-- Bytes that agree in bits 7 to 1 have one value div 2. -/
theorem toNat_div_two_of_high_bits {x y : Byte} (h : ∀ i, 1 ≤ i → x.getLsbD i = y.getLsbD i) :
    x.toNat / 2 = y.toNat / 2 := by
  have hshift : x >>> 1 = y >>> 1 := by
    apply BitVec.eq_of_getLsbD_eq
    intro i _
    rw [BitVec.getLsbD_ushiftRight, BitVec.getLsbD_ushiftRight, h (1 + i) (by omega)]
  have hnat := congrArg BitVec.toNat hshift
  simpa only [BitVec.toNat_ushiftRight, Nat.shiftRight_eq_div_pow, Nat.pow_one] using hnat

/-- Settles O32: `exec_embed_getLsbD`, and the value div 2 that it fixes. -/
theorem embedTouchesOnlyBitZero : Obligations.EmbedTouchesOnlyBitZero := by
  intro s t h j
  have hbits : ∀ i, 1 ≤ i → (t.bufByte j).getLsbD i = (s.bufByte j).getLsbD i := fun _ => exec_embed_getLsbD h j
  have hhalf := toNat_div_two_of_high_bits hbits
  exact ⟨hbits, hhalf, by omega, by omega⟩

/-! ### What EXTRACT depends on -/

/-- The frame that the low bits of a carrier spell (44_lsb_codec.md R187, R189); `State.frame_afterExtract` ties it to
EXTRACT. -/
def spelledFrame (rd : Nat → Byte) : Memory := frameDecode (lsbByte rd 0) (fun k => lsbByte rd (8 + 8 * k))

theorem State.frame_afterExtract (s : State) : s.afterExtract.frame = some (spelledFrame s.bufByte) := rfl

theorem byteOf_spelledFrame (s : State) (rd : Nat → Byte) {k : Nat} (hk : k ≤ (lsbByte rd 0).toNat) :
    s.byteOf .frame (spelledFrame rd) k = lsbByte rd (8 * k) :=
  s.byteOf_frameDecode_lsbByte rd hk

/-- Two carriers spell one frame exactly when they agree in bit 0 of every carrier byte of it. -/
theorem spelledFrame_eq_iff (rd rd' : Nat → Byte) :
    spelledFrame rd' = spelledFrame rd ↔
      ∀ j < requiredBits (lsbByte rd 0).toNat, (rd' j).getLsbD 0 = (rd j).getLsbD 0 := by
  rw [requiredBits]
  constructor
  · intro h j hj
    have hlen : lsbByte rd' 0 = lsbByte rd 0 := by
      have hbyte := congrArg (fun m => State.reset.byteOf .frame m 0) h
      simpa only [byteOf_spelledFrame _ _ (Nat.zero_le _)] using hbyte
    have hbyte := congrArg (fun m => State.reset.byteOf .frame m (j / 8)) h
    simp only [byteOf_spelledFrame State.reset rd (show j / 8 ≤ _ by omega),
      byteOf_spelledFrame State.reset rd' (show j / 8 ≤ _ by rw [hlen]; omega)] at hbyte
    have hbit := congrArg (·.getLsbD (j % 8)) hbyte
    simpa only [lsbByte_getLsbD _ _ _ (Nat.mod_lt j (by omega : 0 < 8)), Nat.div_add_mod] using hbit
  · intro h
    have hlen : lsbByte rd' 0 = lsbByte rd 0 := lsbByte_congr fun i hi => h _ (by omega)
    rw [spelledFrame, spelledFrame, hlen]
    exact frameDecode_congr fun k hk => lsbByte_congr fun i hi => h _ (by omega)

/-- Everything a fault-free EXTRACT can do: BufferTooSmall, Truncated, or the spelled frame. -/
theorem exec_extract_cases {s t : State} (hs : s.fault = false) (h : exec .extract s = .next t) :
    (s.bufLen.toNat < 8 ∧ t = s.raise .framingBufferTooSmall) ∨
    (8 ≤ s.bufLen.toNat ∧ s.bufLen.toNat < requiredBits (lsbByte s.bufByte 0).toNat ∧
      t = s.raise .framingTruncated) ∨
    (8 ≤ s.bufLen.toNat ∧ requiredBits (lsbByte s.bufByte 0).toNat ≤ s.bufLen.toNat ∧ t = s.afterExtract) := by
  rcases extractBody_cases s with ⟨hsmall, e⟩ | ⟨hmin, hover, e⟩ | ⟨hmin, hfits, e⟩
  · exact .inl ⟨hsmall, by cases (command_error hs e).symm.trans h; rfl⟩
  · exact .inr (.inl ⟨hmin, hover, by cases (command_error hs e).symm.trans h; rfl⟩)
  · exact .inr (.inr ⟨hmin, hfits, by cases (command_ok hs e).symm.trans h; rfl⟩)

/-- Agreement in the low bits carries EXTRACT's outcome from one state to another (44_lsb_codec.md R195 (d)). -/
theorem exec_extract_congr {s s' t t' : State} (hs : s.fault = false) (hs' : s'.fault = false)
    (hlen : s'.bufLen = s.bufLen) (h : exec .extract s = .next t) (h' : exec .extract s' = .next t')
    (hbits : ∀ j < s.bufLen.toNat, j < requiredBits (lsbByte s.bufByte 0).toNat →
      (s'.bufByte j).getLsbD 0 = (s.bufByte j).getLsbD 0) :
    t'.err = t.err ∧ (t.fault = false → t'.frame = t.frame ∧ t'.byteIndex = t.byteIndex) := by
  have hL : 8 ≤ s.bufLen.toNat → lsbByte s'.bufByte 0 = lsbByte s.bufByte 0 := fun hmin =>
    lsbByte_congr fun i hi => hbits _ (by omega) (by rw [requiredBits]; omega)
  have hcases' := exec_extract_cases hs' h'
  rw [hlen] at hcases'
  rcases exec_extract_cases hs h with ⟨hsmall, rfl⟩ | ⟨hmin, hover, rfl⟩ | ⟨hmin, hfits, rfl⟩
  · rcases hcases' with ⟨-, rfl⟩ | ⟨hmin', -, -⟩ | ⟨hmin', -, -⟩
    · exact ⟨rfl, by simp⟩
    · omega
    · omega
  · rw [hL hmin] at hcases'
    rcases hcases' with ⟨hsmall', -⟩ | ⟨-, -, rfl⟩ | ⟨-, hfits', -⟩
    · omega
    · exact ⟨rfl, by simp⟩
    · omega
  · have hframe := (spelledFrame_eq_iff s.bufByte s'.bufByte).2 fun j hj => hbits j (by omega) hj
    rw [hL hmin] at hcases'
    rcases hcases' with ⟨hsmall', -⟩ | ⟨-, hover', -⟩ | ⟨-, -, rfl⟩
    · omega
    · omega
    · refine ⟨(State.err_eq_zero hs').trans (State.err_eq_zero hs).symm, fun _ => ⟨congrArg some hframe, ?_⟩⟩
      simp only [State.afterExtract, hL hmin]

/-- A carrier that differs in one of the frame's low bits gives another frame, or none (44_lsb_codec.md R195 (e)). -/
theorem exec_extract_ne {s s' t t' : State} (hs : s.fault = false) (hs' : s'.fault = false)
    (hlen : s'.bufLen = s.bufLen) (h : exec .extract s = .next t) (h' : exec .extract s' = .next t')
    (ht : t.fault = false)
    (hbit : ∃ j < requiredBits (lsbByte s.bufByte 0).toNat, (s'.bufByte j).getLsbD 0 ≠ (s.bufByte j).getLsbD 0) :
    t'.err = 0x32 ∨ (t'.fault = false ∧ t'.frame ≠ t.frame) := by
  obtain ⟨j, hj, hne⟩ := hbit
  obtain ⟨hmin, -, rfl⟩ := exec_extract_nofault hs h ht
  rcases exec_extract_cases hs' h' with ⟨hsmall', -⟩ | ⟨-, -, rfl⟩ | ⟨-, -, rfl⟩
  · rw [hlen] at hsmall'
    omega
  · exact .inl rfl
  · refine .inr ⟨hs', fun hframe => hne ?_⟩
    exact (spelledFrame_eq_iff s.bufByte s'.bufByte).1 (Option.some_inj.1 hframe) j hj

/-- Settles O37: `exec_extract_congr` and `exec_extract_ne`, the announced length as its sum of low bits. -/
theorem extractDependsExactlyOnLowBits : Obligations.ExtractDependsExactlyOnLowBits := by
  intro s s' t t' len hs hs' hbufLen hlen h h'
  rw [← lsbByte_zero_toNat] at hlen
  subst hlen
  exact ⟨exec_extract_congr hs hs' hbufLen h h', exec_extract_ne hs hs' hbufLen h h'⟩

/-! ### EMBED after EMBED, and EMBED after EXTRACT -/

/-- Putting a bit where it already is changes nothing. -/
theorem carrier_idem (x b : Byte) : (((x &&& 0xFE) ||| b) &&& 0xFE) ||| b = (x &&& 0xFE) ||| b := by
  apply BitVec.eq_of_getLsbD_eq
  intro i hi
  simp only [BitVec.getLsbD_or, BitVec.getLsbD_and]
  cases x.getLsbD i <;> cases b.getLsbD i <;> simp

/-- The loop of EMBED, run again over what it wrote, finds every bit in its place. -/
theorem embedLoop_idem {free : Nat → Byte} {bs : List Byte} {m : Memory} (hm : (embedLoop free bs 0 m).1.wf) :
    (embedLoop free bs 0 (embedLoop free bs 0 m).1).1 = (embedLoop free bs 0 m).1 := by
  refine embedLoop_fixed hm fun i b hb => ?_
  have hi : i < bs.length := (List.getElem?_eq_some_iff.1 hb).1
  have hread := embedLoop_read free bs 0 m i
  rw [if_pos (Nat.zero_le i), Nat.sub_zero, hb] at hread
  refine ⟨(m.read free i &&& 0xFE) ||| b, ?_, carrier_idem _ _⟩
  rw [Nat.zero_add, embedLoop_lookup, if_pos ⟨Nat.zero_le i, by omega⟩, hread]

theorem State.Inv.afterEmbed_idem {s : State} (hs : s.Inv) {f : Memory}
    (hfits : requiredBits (s.frameLenOf f).toNat ≤ s.bufLen.toNat) :
    (s.afterEmbed f).afterEmbed f = s.afterEmbed f := by
  have hbuf : (s.afterEmbed f).embedded f = s.embedded f := embedLoop_idem (hs.embedded_within hfits).1
  rw [State.afterEmbed, hbuf]
  rfl

/-- The frame EXTRACT spelled puts back the bits it was spelled from. -/
theorem State.bufByte_afterEmbed_afterExtract (s : State) (j : Nat) :
    (s.afterExtract.afterEmbed (spelledFrame s.bufByte)).bufByte j = s.bufByte j := by
  have hL : s.afterExtract.frameLenOf (spelledFrame s.bufByte) = lsbByte s.bufByte 0 :=
    byteOf_spelledFrame _ _ (Nat.zero_le _)
  by_cases hj : j < requiredBits (lsbByte s.bufByte 0).toNat
  · have hk : j / 8 ≤ (lsbByte s.bufByte 0).toNat := by
      rw [requiredBits] at hj
      omega
    rw [State.bufByte_afterEmbed_of_lt _ _ (hL ▸ hj), byteOf_spelledFrame _ _ hk]
    apply BitVec.eq_of_getLsbD_eq
    intro i _
    rw [carrier_getLsbD]
    split
    next hi => rw [lsbByte_getLsbD _ _ _ (Nat.mod_lt _ (by omega)), Nat.div_add_mod, hi]
    next => rfl
  · rw [State.bufByte_afterEmbed_of_ge _ _ (by rw [hL]; omega)]
    rfl

/-- Settles O39: `State.Inv.afterEmbed_idem`, and `State.bufByte_afterEmbed_afterExtract`. -/
theorem embedIsIdempotentAndUndoesNothing : Obligations.EmbedIsIdempotentAndUndoesNothing := by
  constructor
  · intro s t hinv hs h ht
    obtain ⟨f, hf, hfits, rfl⟩ : ∃ f, _ ∧ _ ∧ t = s.afterEmbed f := exec_embed_nofault hs h ht
    rw [exec_embed ht hf hfits, hinv.afterEmbed_idem hfits]
  · intro s t hs h ht
    obtain ⟨-, hfits, rfl⟩ : _ ∧ _ ∧ t = s.afterExtract := exec_extract_nofault hs h ht
    have hL : s.afterExtract.frameLenOf (spelledFrame s.bufByte) = lsbByte s.bufByte 0 :=
      byteOf_spelledFrame _ _ (Nat.zero_le _)
    exact ⟨_, exec_embed ht s.frame_afterExtract (hL ▸ hfits), ht, s.bufByte_afterEmbed_afterExtract⟩

end Sys2Proof.Machine
end

section
/-! HIDE and REVEAL as runs (30_encoding.md R102, R103): the commands of a run that ends with FAULT = 0, one after the
other, with the host's list of coming actions (log 1) left out. -/

namespace Sys2Proof.Machine

/-! ### A successful run of commands -/

/-- No command reads or writes the host's coming actions. -/
theorem body_withPending (i : Instr) (s : State) (p : List HostAction) :
    body i { s with pending := p } = (body i s).map (fun t => { t with pending := p }) := by
  cases i with
  | parse =>
    simp only [body, parseBody, apply_ite (Except.map _)]
    rfl
  | dsize =>
    have hsizes : ∀ h, State.headerSizes { s with pending := p } h = s.headerSizes h := fun _ => rfl
    simp only [body, dsizeBody, hsizes]
    cases s.hdrRaw with
    | none => rfl
    | some h =>
      dsimp only
      cases s.headerSizes h <;> rfl
  | load =>
    have hsizes : ∀ h, State.headerSizes { s with pending := p } h = s.headerSizes h := fun _ => rfl
    simp only [body, loadBody, hsizes]
    cases hm : s.hdrRaw with
    | none => rfl
    | some h =>
      dsimp only
      cases s.headerSizes h with
      | error e => rfl
      | ok z =>
        simp only [apply_ite (Except.map _)]
        rw [← hm]
        rfl
  | store =>
    simp only [body, storeBody]
    cases s.hdrRaw <;> rfl
  | encode =>
    simp only [body, encodeBody, apply_ite (Except.map _)]
    rfl
  | embed =>
    simp only [body, embedBody]
    cases s.frame with
    | none => rfl
    | some f =>
      simp only [apply_ite (Except.map _)]
      rfl
  | extract =>
    simp only [body, extractBody, apply_ite (Except.map _)]
    rfl

/-- The commands, run one after the other from `s`, all succeed and end in `u`. -/
def CommandsSucceed : List Instr → State → State → Prop
  | [], s, u => u = s
  | i :: is, s, u => ∃ t, exec i s = .next t ∧ t.fault = false ∧ CommandsSucceed is t u

theorem commandsSucceed_of_run {is : List Instr} {s t : State} (hs : s.fault = false)
    (hr : Sys2Proof.core.run is.length { s with pending := issueAll is } = .next t) (ht : t.fault = false) :
    ∃ u, CommandsSucceed is s u ∧ t = { u with pending := [] } := by
  induction is generalizing s with
  | nil =>
    cases hr
    exact ⟨s, rfl, rfl⟩
  | cons i is ih =>
    obtain ⟨u, hb, hr⟩ := run_cons (s := { s with pending := issueAll (i :: is) }) hs rfl hr ht
    have hb' : (body i s).map (fun t => { t with pending := issueAll is }) = .ok u :=
      (body_withPending i s _).symm.trans hb
    cases hbody : body i s with
    | error e =>
      rw [hbody] at hb'
      cases hb'
    | ok v =>
      rw [hbody] at hb'
      cases hb'
      have hv := body_ok_fault hbody hs
      obtain ⟨w, hw, rfl⟩ := ih hv hr
      exact ⟨w, ⟨v, (exec_eq_command i s).trans (command_ok hs hbody), hv, hw⟩, rfl⟩

theorem run_of_commandsSucceed {is : List Instr} {s u : State} (hs : s.fault = false) (h : CommandsSucceed is s u) :
    Sys2Proof.core.run is.length { s with pending := issueAll is } = .next { u with pending := [] } := by
  induction is generalizing s with
  | nil =>
    obtain rfl : u = s := h
    rfl
  | cons i is ih =>
    obtain ⟨t, hexec, ht, h⟩ := h
    have hb : body i { s with pending := issueAll is } = .ok { t with pending := issueAll is } := by
      rw [body_withPending, exec_nofault hs hexec ht]
      rfl
    exact (run_ok (s := { s with pending := issueAll (i :: is) }) hs rfl hb).trans (ih ht h)

/-! ### PARSE, then LOAD -/

theorem exec_parse_nofault {s t : State} (hs : s.fault = false) (h : exec .parse s = .next t) (ht : t.fault = false) :
    s.params.hdrBytes ≤ s.fileLen.toNat ∧ magicField s.fileByte = magicBM ∧
      bitsPerPixelField s.fileByte = bppRequired ∧ compressionField s.fileByte = compressionRequired ∧
      t = s.withHeader :=
  parseBody_ok (exec_nofault hs h ht)

theorem exec_load_nofault {s t : State} (hs : s.fault = false) (h : exec .load s = .next t) (ht : t.fault = false) :
    ∃ m z, s.hdrRaw = some m ∧ s.headerSizes m = .ok z ∧
      z.dataSize.toNat ≤ s.fileLen.toNat - pixelDataOffsetField (s.byteOf .hdrRaw m) ∧ t = s.loaded m z := by
  have hok : loadBody s = .ok t := exec_nofault hs h ht
  rcases loadBody_cases s with ⟨-, e⟩ | ⟨_, -, -, e⟩ | ⟨_, _, -, -, -, -, e⟩ | ⟨m, z, hm, -, hz, hfits, e⟩ <;>
    rw [e] at hok <;> cases hok
  exact ⟨m, z, hm, hz, hfits, rfl⟩

/-- The header PARSE copies from FILE. -/
def State.fileHeader (s : State) : Memory := Memory.ofFn s.params.hdrBytes s.fileByte

/-- The header fields LOAD reads are the file's: HDR_BYTES ≥ 38 covers them (20_memory.md R69). -/
theorem State.loadFields_withHeader {s : State} (h38 : 38 ≤ s.params.hdrBytes) :
    s.withHeader.headerSizes s.fileHeader = sizesOf (widthPxField s.fileByte) (heightPxField s.fileByte) ∧
      pixelDataOffsetField (s.withHeader.byteOf .hdrRaw s.fileHeader) = pixelDataOffsetField s.fileByte := by
  have hbytes : ∀ a < 38, s.withHeader.byteOf .hdrRaw s.fileHeader a = s.fileByte a :=
    fun a ha => State.byteOf_ofFn s.fileByte (by omega)
  obtain ⟨-, -, hoff, hwidth, hheight, -, -, -⟩ := headerFields_congr hbytes
  exact ⟨by rw [State.headerSizes, hwidth, hheight], hoff⟩

/-- FILE passes PARSE and then LOAD, which reads a raster of sizes `z` at `off` (41_header_parse.md R112 to R115,
42_pixel_buffer.md R131, R142). -/
structure State.Loads (s : State) (off : Nat) (z : Sizes) : Prop where
  long : s.params.hdrBytes ≤ s.fileLen.toNat
  magic : magicField s.fileByte = magicBM
  depth : bitsPerPixelField s.fileByte = bppRequired
  compression : compressionField s.fileByte = compressionRequired
  offset : pixelDataOffsetField s.fileByte = off
  sizes : sizesOf (widthPxField s.fileByte) (heightPxField s.fileByte) = .ok z
  fits : z.dataSize.toNat ≤ s.fileLen.toNat - off

/-- The state after PARSE and LOAD of a file with sizes `z`. -/
def State.fileLoaded (s : State) (z : Sizes) : State := s.withHeader.loaded s.fileHeader z

theorem State.Loads.exec_parse {s : State} {off : Nat} {z : Sizes} (h : s.Loads off z) (hs : s.fault = false) :
    exec .parse s = .next s.withHeader :=
  exec_parse_passes hs h.long h.magic h.depth h.compression

theorem State.Loads.exec_load {s : State} {off : Nat} {z : Sizes} (h : s.Loads off z) (h38 : 38 ≤ s.params.hdrBytes)
    (hs : s.fault = false) : exec .load s.withHeader = .next (s.fileLoaded z) := by
  obtain ⟨hsizes, hoff⟩ := State.loadFields_withHeader h38
  have hfits :
      z.dataSize.toNat ≤ s.fileLen.toNat - pixelDataOffsetField (s.withHeader.byteOf .hdrRaw s.fileHeader) := by
    rw [hoff, h.offset]
    exact h.fits
  exact Machine.exec_load (s := s.withHeader) hs rfl (hsizes.trans h.sizes) hfits

theorem State.Loads.bufByte_fileLoaded {s : State} {off : Nat} {z : Sizes} (h : s.Loads off z)
    (h38 : 38 ≤ s.params.hdrBytes) {i : Nat} (hi : i < z.dataSize.toNat) :
    (s.fileLoaded z).bufByte i = s.fileByte (off + i) := by
  have hread := s.withHeader.bufByte_loaded s.fileHeader hi
  rw [(State.loadFields_withHeader h38).2, h.offset] at hread
  exact hread

theorem loads_of_exec {s t u : State} (h38 : 38 ≤ s.params.hdrBytes) (hs : s.fault = false)
    (hparse : exec .parse s = .next t) (ht : t.fault = false) (hload : exec .load t = .next u) (hu : u.fault = false) :
    ∃ z, s.Loads (pixelDataOffsetField s.fileByte) z ∧ u = s.fileLoaded z := by
  obtain ⟨hlong, hmagic, hdepth, hcomp, rfl⟩ := exec_parse_nofault hs hparse ht
  obtain ⟨m, z, hm, hz, hfits, rfl⟩ := exec_load_nofault ht hload hu
  obtain rfl : s.fileHeader = m := Option.some_inj.1 hm
  obtain ⟨hsizes, hoff⟩ := State.loadFields_withHeader h38
  rw [hoff] at hfits
  exact ⟨z, ⟨hlong, hmagic, hdepth, hcomp, rfl, hsizes ▸ hz, hfits⟩, rfl⟩

/-- A file with the same header whose raster is all there loads with the same sizes. -/
theorem State.Loads.congr {s s' : State} {off : Nat} {z : Sizes} (h : s.Loads off z)
    (hbytes : ∀ a < 38, s'.fileByte a = s.fileByte a) (hlong : s'.params.hdrBytes ≤ s'.fileLen.toNat)
    (hfits : z.dataSize.toNat ≤ s'.fileLen.toNat - off) : s'.Loads off z := by
  obtain ⟨hmagic, -, hoff, hwidth, hheight, hdepth, hcomp, -⟩ := headerFields_congr hbytes
  exact ⟨hlong, hmagic.trans h.magic, hdepth.trans h.depth, hcomp.trans h.compression, hoff.trans h.offset,
    by rw [hwidth, hheight, h.sizes], hfits⟩

/-! ### HIDE -/

/-- The state HIDE leaves just before its STORE, for a file with sizes `z`. -/
def State.hidden (s : State) (z : Sizes) : State :=
  (s.fileLoaded z).encoded.afterEmbed (s.fileLoaded z).payloadFrame

/-- What HIDE did when its five commands succeeded. -/
theorem hide_succeeds {s u : State} (h38 : 38 ≤ s.params.hdrBytes) (hs : s.fault = false)
    (h : CommandsSucceed Flow.hide.commands s u) :
    ∃ z, s.Loads (pixelDataOffsetField s.fileByte) z ∧ s.payloadLen.toNat ≤ 255 ∧
      requiredBits s.payloadLen.toNat ≤ z.dataSize.toNat ∧ u = (s.hidden z).stored s.fileHeader := by
  obtain ⟨t₁, hparse, ht₁, t₂, hload, ht₂, t₃, hencode, ht₃, t₄, hembed, ht₄, t₅, hstore, ht₅, rfl⟩ := h
  obtain ⟨z, hz, rfl⟩ := loads_of_exec h38 hs hparse ht₁ hload ht₂
  obtain ⟨hlen, rfl⟩ := exec_encode_nofault ht₂ hencode ht₃
  obtain ⟨f, hf, hfits, rfl⟩ := exec_embed_nofault ht₃ hembed ht₄
  obtain rfl : (s.fileLoaded z).payloadFrame = f := Option.some_inj.1 hf
  rw [State.frameLenOf_encoded_toNat hlen] at hfits
  have hstored := exec_store (s := s.hidden z) (m := s.fileHeader) hs rfl
  exact ⟨z, hz, hlen, hfits, Host.Outcome.next.inj (hstore.symm.trans hstored)⟩

/-- HIDE's output file starts with the header of its input file. -/
theorem State.byteAt_hidden_header (s : State) (z : Sizes) {a : Nat} (ha : a < s.params.hdrBytes) :
    ((s.hidden z).stored s.fileHeader).byteAt .out a = some (s.fileByte a) :=
  (State.byteAt_stored_header (s := s.hidden z) (m := s.fileHeader) rfl ha).trans
    (congrArg some (State.byteOf_ofFn s.fileByte ha))

/-- OUT_LEN after HIDE: the header and the raster, which the capacities keep below 2^64. -/
theorem State.Inv.hidden_len {s : State} (hs : s.Inv) {off : Nat} {z : Sizes} (hz : s.Loads off z) :
    ((s.hidden z).outFile s.fileHeader).len.toNat = s.params.hdrBytes + z.dataSize.toNat := by
  obtain ⟨-, -, hfile, hout, hmax⟩ := hs.params_wf
  have hlen := hs.fileLen_le
  have hfits := hz.fits
  change (BitVec.ofNat 64 (s.params.hdrBytes + z.dataSize.toNat)).toNat = _
  rw [BitVec.toNat_ofNat, Nat.mod_eq_of_lt (by omega)]

/-! ### REVEAL of HIDE's output -/

/-- PARSE and LOAD of a file that holds HIDE's output put the embedded raster back into BUF, and EXTRACT reads the
payload from it (44_lsb_codec.md R194). -/
theorem reveal_succeeds {s s' : State} {z : Sizes} (h38 : 38 ≤ s.params.hdrBytes) (hs : s.fault = false)
    (hs' : s'.fault = false) (hparams : s'.params = s.params) (hz : s.Loads s.params.hdrBytes z)
    (hlen : s.payloadLen.toNat ≤ 255) (hfits : requiredBits s.payloadLen.toNat ≤ z.dataSize.toNat)
    (hfileLen : s'.fileLen.toNat = s.params.hdrBytes + z.dataSize.toNat)
    (hheader : ∀ a < s.params.hdrBytes, s'.fileByte a = s.fileByte a)
    (hraster : ∀ i < z.dataSize.toNat, s'.fileByte (s.params.hdrBytes + i) = (s.hidden z).bufByte i) :
    ∃ u, CommandsSucceed Flow.reveal.commands s' u ∧ u.fault = false ∧
      u.regValue .frameLen = some (s.payloadLen.toNat : Int) ∧
      ∀ k < s.payloadLen.toNat, u.byteAt .frame (1 + k) = some (s.msgByte k) := by
  have h38' : 38 ≤ s'.params.hdrBytes := hparams ▸ h38
  have hz' : s'.Loads s.params.hdrBytes z :=
    hz.congr (fun a ha => hheader a (by omega)) (by rw [hparams]; omega) (by omega)
  have hframeLen : (s.fileLoaded z).encoded.regValue .frameLen = some (s.payloadLen.toNat : Int) :=
    congrArg (fun n : Nat => some (n : Int)) (State.frameLenOf_encoded_toNat (s := s.fileLoaded z) hlen)
  obtain ⟨t, hembed, -, -, hback⟩ :=
    embedThenExtractGivesTheFrameBack (s.fileLoaded z).encoded s.payloadLen.toNat hs hframeLen hfits
  obtain rfl : s.hidden z = t := by
    have hembed' : exec .embed (s.fileLoaded z).encoded = .next (s.hidden z) :=
      exec_embed hs rfl (by rw [State.frameLenOf_encoded_toNat (s := s.fileLoaded z) hlen]; exact hfits)
    exact Host.Outcome.next.inj (hembed'.symm.trans hembed)
  have hbuf : ∀ j < requiredBits s.payloadLen.toNat, (s'.fileLoaded z).bufByte j = (s.hidden z).bufByte j := by
    intro j hj
    rw [hz'.bufByte_fileLoaded h38' (by omega), hraster j (by omega)]
  obtain ⟨u, hextract, hu, hulen, hubytes, -, -⟩ := hback (s'.fileLoaded z) hs' hfits hbuf
  refine ⟨u, ⟨_, hz'.exec_parse hs', hs', _, hz'.exec_load h38' hs', hs', u, hextract, hu, rfl⟩, hu, hulen,
    fun k hk => ?_⟩
  rw [hubytes (1 + k) (by omega)]
  exact State.byteAt_encoded_payload (s := s.fileLoaded z) hlen hk

/-- Settles O41: `hide_succeeds` says what HIDE wrote to OUT, and `reveal_succeeds` what REVEAL makes of a file that
holds it. -/
theorem revealOfHideGivesThePayload : Obligations.RevealOfHideGivesThePayload := by
  intro s t s' hinv hs hs' hparams hp hp' hr ht hoff hout hbytes
  have h38 : 38 ≤ s.params.hdrBytes := hinv.params_wf.1
  have hstart : { s with pending := issueAll Flow.hide.commands } = s := by rw [← hp]
  have hstart' : { s' with pending := issueAll Flow.reveal.commands } = s' := by rw [← hp']
  obtain ⟨u, hu, rfl⟩ := commandsSucceed_of_run (is := Flow.hide.commands) hs (by rw [hstart]; exact hr) ht
  obtain ⟨z, hz, hlen, hfits, rfl⟩ := hide_succeeds h38 hs hu
  have hoff : pixelDataOffsetField s.fileByte = s.params.hdrBytes := by
    have hoff' := State.pixelDataOffset_eq_some (m := s.fileHeader) rfl hoff
    exact (State.loadFields_withHeader h38).2.symm.trans (Int.ofNat_inj.1 hoff')
  rw [hoff] at hz
  have hfileLen : s'.fileLen.toNat = s.params.hdrBytes + z.dataSize.toNat :=
    (Int.ofNat_inj.1 (Option.some_inj.1 hout)).symm.trans (hinv.hidden_len hz)
  have hheader : ∀ a < s.params.hdrBytes, s'.fileByte a = s.fileByte a := fun a ha =>
    Option.some_inj.1 ((hbytes a (by omega)).symm.trans (s.byteAt_hidden_header z ha))
  have hraster : ∀ i < z.dataSize.toNat, s'.fileByte (s.params.hdrBytes + i) = (s.hidden z).bufByte i := fun i hi =>
    Option.some_inj.1 ((hbytes _ (by omega)).symm.trans ((s.hidden z).byteAt_stored_buffer s.fileHeader hi))
  obtain ⟨v, hv, hvfault, hvlen, hvbytes⟩ :=
    reveal_succeeds h38 hs hs' hparams hz hlen hfits hfileLen hheader hraster
  have hrun := run_of_commandsSucceed hs' hv
  rw [hstart'] at hrun
  exact ⟨{ v with pending := [] }, hrun, hvfault, hvlen, hvbytes⟩

end Sys2Proof.Machine
end

section
/-! The host port (70_reset_and_hazards.md R258, R261): which actions are refused, which complete, and what they do. -/

namespace Sys2Proof.Machine

/-! ### Actions outside the host rules -/

theorem hostWriteTo_refused {r : Reg} {v : Nat} {s : State}
    (h : HostAction.wf s.params (.writeReg r.number v) = false) : ∃ e, hostWriteTo r v s = .refused e := by
  simp only [HostAction.wf, Reg.ofNumber_number] at h
  by_cases hwritable : r.hostWritable = true
  · by_cases hwide : 2 ^ r.width ≤ v
    · exact ⟨.valueTooWide r v, by simp [hostWriteTo, hwritable, hwide]⟩
    · rw [hwritable, decide_eq_true (Nat.lt_of_not_le hwide)] at h
      cases r with
      | fileLen =>
        have hcap : s.params.fileCap < v := by simpa using h
        exact ⟨.lengthAboveCapacity .fileLen v, by simp only [hostWriteTo, hwritable, hwide, hcap, Bool.not_true,
          Bool.false_eq_true, if_false, if_true]⟩
      | bufLen =>
        have hcap : s.params.bufCap < v := by simpa using h
        exact ⟨.lengthAboveCapacity .bufLen v, by simp only [hostWriteTo, hwritable, hwide, hcap, Bool.not_true,
          Bool.false_eq_true, if_false, if_true]⟩
      | cmd | payloadLen => simp at h
      | _ => cases hwritable
  · exact ⟨.readOnlyRegister r, by simp [hostWriteTo, hwritable]⟩

theorem hostReadReg_refused {n : Byte} {p : Params} (h : HostAction.wf p (.readReg n) = false) (s : State) :
    ∃ e, hostReadReg n s = .refused e := by
  cases hr : Reg.ofNumber n with
  | none => exact ⟨.reservedRegister n, by simp only [hostReadReg, hr]⟩
  | some r =>
    obtain rfl : r = .cmd := by simpa [HostAction.wf, hr] using h
    exact ⟨.readOfCmd, by simp only [hostReadReg, hr, if_true]⟩

theorem hostWriteReg_refused {n : Byte} {v : Nat} {s : State} (h : HostAction.wf s.params (.writeReg n v) = false) :
    ∃ e, hostWriteReg n v s = .refused e := by
  cases hr : Reg.ofNumber n with
  | none => exact ⟨.reservedRegister n, by simp only [hostWriteReg, hr]⟩
  | some r =>
    obtain rfl := Reg.number_of_ofNumber hr
    simp only [hostWriteReg, hr]
    exact hostWriteTo_refused h

theorem hostWriteMem_refused {sp : Space} {a : Nat} {b : Byte} {s : State}
    (h : HostAction.wf s.params (.writeMem sp a b) = false) : ∃ e, hostWriteMem sp a b s = .refused e := by
  by_cases hi : sp.size s.params ≤ a
  · exact ⟨.noSuchIndex sp a, if_pos hi⟩
  · have hreadOnly : sp.hostWritable = false := by simpa [HostAction.wf, Nat.lt_of_not_le hi] using h
    cases sp with
    | hdrRaw | frame | out => exact ⟨_, if_neg hi⟩
    | file | buf | msg => cases hreadOnly

/-- Settles O42: each ill-formed action has its refusal, and a guarded read of an absent value is refused by name. -/
theorem actionsOutsideTheHostRulesStop : Obligations.ActionsOutsideTheHostRulesStop := by
  refine ⟨fun s a h => ?_, fun s n r hr hc hv => ?_, fun s sp a hi hb => ?_⟩
  · cases a with
    | readReg n => exact hostReadReg_refused h s
    | writeReg n v => exact hostWriteReg_refused h
    | readMem sp i =>
      have hi : sp.size s.params ≤ i := by simpa [HostAction.wf] using h
      exact ⟨.noSuchIndex sp i, if_pos hi⟩
    | writeMem sp i b => exact hostWriteMem_refused h
    | reset => cases h
    | issue c => cases h
  · simp only [act, hostReadReg, hr, hc, hv, if_false]
  · simp only [act, hostReadMem, Nat.not_le.2 hi, hb, if_false]

/-! ### Reads -/

theorem act_readMem_beyond {sp : Space} {i : Nat} {s : State} (hlen : s.length sp ≤ i) (hi : i < sp.size s.params)
    (hb : s.byteAt sp i ≠ none) :
    act (.readMem sp i) s =
      .next { s.reply (.byte sp i (Config.strayByte s.strays)) with strays := s.strays + 1 } := by
  obtain ⟨b, hb⟩ := Option.ne_none_iff_exists'.1 hb
  simp only [act, hostReadMem, Nat.not_le.2 hi, hb, Nat.not_lt.2 hlen, if_false]

/-- Settles O46: `act_readReg`, `act_readMem` and `act_readMem_beyond`; CMD holds no value. -/
theorem hostReadsAnswerWhatIsHeld : Obligations.HostReadsAnswerWhatIsHeld := by
  refine ⟨fun s r v hv => ?_, fun s sp a b hi hlen hb => act_readMem hlen hi hb,
    fun s sp a hi hlen hb => ⟨_, act_readMem_beyond hlen hi hb⟩⟩
  have hc : r ≠ .cmd := by
    rintro rfl
    cases hv
  exact act_readReg r.ofNumber_number hc hv

/-! ### Actions inside the host rules -/

theorem act_readReg_next_of_wf {n : Byte} {s : State} (h : HostAction.wf s.params (.readReg n) = true)
    (hguard : ∀ r, Reg.ofNumber n = some r → s.regValue r ≠ none) : ∃ t, act (.readReg n) s = .next t := by
  cases hr : Reg.ofNumber n with
  | none => simp [HostAction.wf, hr] at h
  | some r =>
    have hc : r ≠ .cmd := by simpa [HostAction.wf, hr] using h
    obtain ⟨v, hv⟩ := Option.ne_none_iff_exists'.1 (hguard r hr)
    exact ⟨_, act_readReg hr hc hv⟩

theorem act_readMem_next_of_wf {sp : Space} {i : Nat} {s : State} (h : HostAction.wf s.params (.readMem sp i) = true)
    (hguard : s.byteAt sp i ≠ none) : ∃ t, act (.readMem sp i) s = .next t := by
  have hi : i < sp.size s.params := by simpa [HostAction.wf] using h
  by_cases hlen : i < s.length sp
  · obtain ⟨b, hb⟩ := Option.ne_none_iff_exists'.1 hguard
    exact ⟨_, act_readMem hlen hi hb⟩
  · exact ⟨_, act_readMem_beyond (Nat.le_of_not_lt hlen) hi hguard⟩

/-- Settles O43: one lemma per kind of action. -/
theorem actionsInsideTheHostRulesComplete : Obligations.ActionsInsideTheHostRulesComplete := by
  intro s a hwf hreg hmem
  cases a with
  | readReg n => exact act_readReg_next_of_wf hwf fun r => hreg n r rfl
  | writeReg n v => exact act_writeReg_next_of_wf hwf
  | readMem sp i => exact act_readMem_next_of_wf hwf (hmem sp i rfl)
  | writeMem sp i b => exact act_writeMem_next_of_wf hwf
  | reset => exact ⟨_, rfl⟩
  | issue c => exact issue_next c s

/-! ### The host's write of a byte -/

/-- The state after the host's write of a byte to FILE, BUF or MSG; `act_writeMem` ties it to the action. The other
spaces take none. -/
def State.withByte (s : State) (sp : Space) (a : Nat) (b : Byte) : State :=
  match sp with
  | .file => { s with file := s.file.write a b }
  | .buf => { s with buf := s.buf.write a b }
  | .msg => { s with msg := s.msg.write a b }
  | .hdrRaw => s
  | .frame => s
  | .out => s

theorem act_writeMem {sp : Space} {a : Nat} {b : Byte} {s : State} (hw : sp.hostWritable = true)
    (ha : a < sp.size s.params) : act (.writeMem sp a b) s = .next (s.withByte sp a b) := by
  cases sp with
  | file | buf | msg => exact if_neg (Nat.not_le.2 ha)
  | hdrRaw | frame | out => cases hw

theorem State.regValue_withByte (s : State) (sp : Space) (a : Nat) (b : Byte) (r : Reg) :
    (s.withByte sp a b).regValue r = s.regValue r := by
  cases sp <;> rfl

theorem State.length_withByte (s : State) (sp : Space) (a : Nat) (b : Byte) (sp' : Space) :
    (s.withByte sp a b).length sp' = s.length sp' := by
  cases sp <;> rfl

theorem State.params_withByte (s : State) (sp : Space) (a : Nat) (b : Byte) :
    (s.withByte sp a b).params = s.params := by
  cases sp <;> rfl

theorem State.freeOf_withByte (s : State) (sp : Space) (a : Nat) (b : Byte) (sp' : Space) :
    (s.withByte sp a b).freeOf sp' = s.freeOf sp' := by
  cases sp <;> rfl

theorem State.mem_withByte_ne (s : State) {sp sp' : Space} (h : sp' ≠ sp) (a : Nat) (b : Byte) :
    (s.withByte sp a b).mem sp' = s.mem sp' := by
  cases sp with
  | hdrRaw | frame | out => rfl
  | file =>
    cases sp' with
    | file => exact absurd rfl h
    | _ => rfl
  | buf =>
    cases sp' with
    | buf => exact absurd rfl h
    | _ => rfl
  | msg =>
    cases sp' with
    | msg => exact absurd rfl h
    | _ => rfl

theorem State.mem_withByte_self (s : State) {sp : Space} (hw : sp.hostWritable = true) (a : Nat) (b : Byte) :
    ∃ m, s.mem sp = some m ∧ (s.withByte sp a b).mem sp = some (m.write a b) := by
  cases sp with
  | file | buf | msg => exact ⟨_, rfl, rfl⟩
  | hdrRaw | frame | out => cases hw

theorem State.byteAt_withByte_self (s : State) {sp : Space} (hw : sp.hostWritable = true) (a a' : Nat) (b : Byte) :
    (s.withByte sp a b).byteAt sp a' = if a = a' then some b else s.byteAt sp a' := by
  obtain ⟨m, hm, hm'⟩ := s.mem_withByte_self hw a b
  rw [State.byteAt, State.byteAt, hm, hm', Option.map_some, Option.map_some, State.byteOf, State.byteOf,
    State.freeOf_withByte, Memory.read_write, apply_ite some]

/-- Settles O44: the state is `s.withByte sp a b`. -/
theorem hostReadsTheLatestWrite : Obligations.HostReadsTheLatestWrite := by
  intro s sp a b hw ha
  have hb : (s.withByte sp a b).byteAt sp a = some b := by rw [s.byteAt_withByte_self hw, if_pos rfl]
  refine ⟨s.withByte sp a b, act_writeMem hw ha, hb, s.regValue_withByte sp a b, fun sp' a' hne => ?_, fun hlen => ?_⟩
  · by_cases hsp : sp' = sp
    · subst hsp
      rw [s.byteAt_withByte_self hw, if_neg fun h => hne.elim (absurd rfl) (absurd h.symm)]
    · exact State.byteAt_congr (s.mem_withByte_ne hsp a b) (s.freeOf_withByte sp a b sp') a'
  · exact act_readMem (by rwa [State.length_withByte]) (by rwa [State.params_withByte]) hb

/-! ### The host's write of a length -/

/-- A byte at or beyond the old BUF_LEN is in no range the host's write gives up (log 4). -/
theorem State.bufByte_setBufLen_of_ge (s : State) (n : Word64) {j : Nat} (hj : s.bufLen.toNat ≤ j) :
    (s.setBufLen n).bufByte j = s.bufByte j := by
  have hdrops : (s.setBufLen n).drops .buf j = s.drops .buf j := by
    simp only [State.drops, State.setBufLen_bufDropped]
    split
    · rw [List.countP_cons_of_neg (by simp [Nat.not_lt.2 hj])]
    · rfl
  simp [State.bufByte, State.byteOf, Memory.read, Memory.lookup_dropRange, State.freeOf, hdrops, hj]

/-- Settles O45: the three writes inside the host rules; the bytes of BUF that stay lie below the new length or at or
beyond the old one. -/
theorem hostSetsTheLengths : Obligations.HostSetsTheLengths := by
  intro s v
  refine ⟨fun hv hcap => ?_, fun hv hcap => ?_, fun hv => ?_⟩
  · have hval : (BitVec.ofNat 64 v).toNat = v := by rw [BitVec.toNat_ofNat, Nat.mod_eq_of_lt hv]
    exact ⟨_, act_writeFileLen hv hcap, congrArg (fun n : Nat => some (n : Int)) hval, rfl⟩
  · have hval : (BitVec.ofNat 64 v).toNat = v := by rw [BitVec.toNat_ofNat, Nat.mod_eq_of_lt hv]
    refine ⟨_, act_writeBufLen hv hcap, congrArg (fun n : Nat => some (n : Int)) hval, rfl, fun a ha => ?_⟩
    rcases ha with hlt | hge
    · exact s.bufByte_setBufLen_of_lt (by rwa [hval])
    · exact s.bufByte_setBufLen_of_ge _ hge
  · have hval : (BitVec.ofNat 32 v).toNat = v := by rw [BitVec.toNat_ofNat, Nat.mod_eq_of_lt hv]
    exact ⟨_, act_writePayloadLen hv s, congrArg (fun n : Nat => some (n : Int)) hval, rfl⟩

end Sys2Proof.Machine
end
